-- ==== Sys2Proof/Word.lean ====
section
/-! DEFINITION. The words of the machine: limbs, field elements, the raw request and the status word.
Rules: 00_scope.md R8, R9; 10_state.md R24, R25; 20_memory.md R41, R46. -/

namespace Sys2Proof

/-- One limb: 64 bits, read as a two's complement integer (R9, R46). -/
abbrev Limb := BitVec 64

/-- The integer a limb stands for: `sext_64` of its bits, in [-2^63, 2^63 - 1] (R8). -/
abbrev Limb.value (x : Limb) : Int := x.toInt

/-- A field element: an ordered sequence of exactly five limbs (R9).
Two elements are equal only when every limb matches (R10). -/
structure FE where
  l0 : Limb
  l1 : Limb
  l2 : Limb
  l3 : Limb
  l4 : Limb
  deriving DecidableEq, Repr, Inhabited

/-- The element (0, 0, 0, 0, 0). -/
def FE.zero : FE := ⟨0, 0, 0, 0, 0⟩

/-- The status word ST (R25): bit 0 is ILLEGAL_OP, bit 1 is PRE_VIOL. -/
abbrev Status := BitVec 2

/-- What one accepted request will answer: C and ST (R24, R28). -/
structure Response where
  c  : FE
  st : Status
  deriving DecidableEq, Repr

/-- The payload of the request channel (R24, R41): the raw code on `req_op` and the limbs that the buses `req_a` and `req_b`
carry. The bus bits of an element are `FE.toBus` (R46). -/
structure Request where
  op : BitVec 4
  a  : FE
  b  : FE
  deriving DecidableEq, Repr

end Sys2Proof
end

