-- ==== Sys2Proof/Config.lean ====
section
/-! DEFINITION. The fixed constants of the block, the record of its build parameters and its free values
(00_scope.md R2, R7, R14; 60_exceptions.md R154). -/

namespace Sys2Proof

namespace Config

/-- 2^RADIX_BITS = 2^51: limb i weighs 2^(51·i) (R7, R9, R14). -/
def radix : Int := 2251799813685248

/-- FOLD = 19, the constant with 2^255 ≡ 19 (mod p) (R2, R7). -/
def fold : Int := 19

/-- The modulus p = 2^255 - 19 (R2). -/
def modulus : Int := 2 ^ 255 - 19

/-- The least 64-bit signed integer, -2^63 (R8). -/
def limbMin : Int := -9223372036854775808

/-- The greatest 64-bit signed integer, 2^63 - 1 (R14). -/
def limbMax : Int := 9223372036854775807

/-- The greatest magnitude of an operand limb inside MULT's precondition, 2^52 - 1 (R14, R120). -/
def multLimbMax : Int := 4503599627370495

/-- The free values of OOR_RESULT = `Arbitrary` (R154): draw number n is any 320-bit pattern, that is any five
64-bit limbs. It has no body, so nothing can be proved about a draw's value. Log entry 5. -/
opaque freeElement : Nat → BitVec 320

end Config

/-- OOR_RESULT (R7, R154): what an operation returns when its precondition fails. -/
inductive OorResult where
  /-- C is the value of the datapath rules (R84, R102, R133). The default. -/
  | wrap
  /-- C is a draw, any five 64-bit limbs. -/
  | arbitrary
  deriving DecidableEq, Repr

/-- The build parameters a rule of the model reads (R7, R27). They are fixed when the block is built; no request
and no step changes them. LATENCY is left out (R191, log entry 17) and WRAPPER_LAYOUT lies outside the block (R47). -/
structure Params where
  /-- CHECK_PRECOND: enables the status bit PRE_VIOL (R152). -/
  checkPrecond : Bool
  /-- OOR_RESULT (R154). -/
  oorResult : OorResult
  /-- DEPTH: the greatest number of requests in flight, at least 1. -/
  depth : Nat
  deriving DecidableEq, Repr

/-- R7's defaults, with DEPTH = 2, which R7 leaves open (DESIGN CHOICE, log entry 2). -/
def Params.default : Params := { checkPrecond := false, oorResult := .wrap, depth := 2 }

end Sys2Proof
end

