-- ==== Sys2Proof/Syntax.lean ====
section
/-! DEFINITION. The requests of the block, one constructor per row of spec/opcode_table.json, and the abstract lines
of the spec's text syntax (30_encoding.md R62, R64, R66, R68, R69). -/

namespace Sys2Proof

/-- A request, its operands as field elements. Every request carries both operand payloads (R60, R67); REDUCE does not
read `b` and a reserved code reads neither (R66). Log entry 12. -/
inductive Instr where
  /-- OP 0x0, limb-wise addition (R82). -/
  | add (a b : FE)
  /-- OP 0x1, limb-wise subtraction (R83). -/
  | sub (a b : FE)
  /-- OP 0x2, one carry-reduction pass over `a` (R102). -/
  | reduce (a b : FE)
  /-- OP 0x3, field multiplication with reduction (R127). -/
  | mult (a b : FE)
  /-- OP 0x4, reserved (R64). -/
  | op4 (a b : FE)
  /-- OP 0x5, reserved (R64). -/
  | op5 (a b : FE)
  /-- OP 0x6, reserved (R64). -/
  | op6 (a b : FE)
  /-- OP 0x7, reserved (R64). -/
  | op7 (a b : FE)
  /-- OP 0x8, reserved (R64). -/
  | op8 (a b : FE)
  /-- OP 0x9, reserved (R64). -/
  | op9 (a b : FE)
  /-- OP 0xA, reserved (R64). -/
  | opA (a b : FE)
  /-- OP 0xB, reserved (R64). -/
  | opB (a b : FE)
  /-- OP 0xC, reserved (R64). -/
  | opC (a b : FE)
  /-- OP 0xD, reserved (R64). -/
  | opD (a b : FE)
  /-- OP 0xE, reserved (R64). -/
  | opE (a b : FE)
  /-- OP 0xF, reserved (R64). -/
  | opF (a b : FE)
  deriving DecidableEq, Repr

/-! ### The abstract lines of the text syntax (R68, R69) -/

/-- A name of the text syntax, as its characters. -/
abbrev Ident := List Char

/-- `mnemonic` of R68; `op k` is `OP.k`, the raw code k. -/
inductive Mnemonic where
  | add
  | sub
  | reduce
  | mult
  | op (k : BitVec 4)
  deriving DecidableEq, Repr

/-- The five integers of a literal element, l0 first (R68). -/
structure Literal where
  l0 : Int
  l1 : Int
  l2 : Int
  l3 : Int
  l4 : Int
  deriving DecidableEq, Repr

/-- `elem` of R68: a literal, or the name of the result of an earlier line. -/
inductive Operand where
  | lit (x : Literal)
  | name (x : Ident)
  deriving DecidableEq, Repr

/-- One line of the text syntax: a request, or one of the two pseudo-instructions (R68, R69). -/
inductive Line where
  /-- `[name '='] mnemonic operands`. -/
  | request (result : Option Ident) (m : Mnemonic) (operands : List Operand)
  /-- `name = NEW (l0, …, l4)`: binds the name and issues no request. -/
  | new (result : Ident) (x : Literal)
  /-- `name = REDUCE2 x`: two REDUCE requests. -/
  | reduce2 (result : Ident) (x : Operand)
  deriving DecidableEq, Repr

end Sys2Proof
end

