-- ==== Sys2Proof/WellFormed.lean ====
section
/-! DEFINITION. What is well-formed: parameters (R7), the length of a request word (R67), requests (R63) and lines of the
text syntax (R68). -/

namespace Sys2Proof

/-- R7: DEPTH is at least 1. -/
def Params.wellFormed (p : Params) : Bool := decide (1 ≤ p.depth)

/-- R67: there is one request length, 644 bits; the number `w` must fit it. -/
def wordWellFormed (len w : Nat) : Bool := len == 644 && decide (w < 2 ^ 644)

/-- Every 320-bit pattern is a legal operand (R63), and every 4-bit code is a row of the opcode table (R62, R64), so no
request is ill-formed: `Instr` admits only what the ports can carry. -/
abbrev Instr.WellFormed (_ : Instr) : Prop := True

/-- An integer of the text syntax lies in [-2^63, 2^63 - 1] (R68). -/
def intWellFormed (v : Int) : Bool := decide (Config.limbMin ≤ v) && decide (v ≤ Config.limbMax)

def Literal.wellFormed (x : Literal) : Bool :=
  intWellFormed x.l0 && intWellFormed x.l1 && intWellFormed x.l2 && intWellFormed x.l3 && intWellFormed x.l4

/-- A name may be used only after an earlier line has bound it (R68). -/
def Operand.wellFormed (bound : List Ident) : Operand → Bool
  | .lit x => x.wellFormed
  | .name x => bound.contains x

/-- How many operands a mnemonic takes in the text syntax: REDUCE takes one, every other mnemonic two (R68). -/
def Mnemonic.arity : Mnemonic → Nat
  | .reduce => 1
  | .add => 2
  | .sub => 2
  | .mult => 2
  | .op _ => 2

/-- One line, given the names that earlier lines bound (R68, R69). -/
def Line.wellFormed (bound : List Ident) : Line → Bool
  | .request _ m xs => xs.length == m.arity && xs.all (Operand.wellFormed bound)
  | .new _ x => x.wellFormed
  | .reduce2 _ x => x.wellFormed bound

/-- The name a line binds, if any. -/
def Line.binds : Line → Option Ident
  | .request r _ _ => r
  | .new r _ => some r
  | .reduce2 r _ => some r

/-- A list of lines, checked in order: each line sees the names of the lines before it. -/
def linesWellFormed (bound : List Ident) : List Line → Bool
  | [] => true
  | l :: ls => l.wellFormed bound && linesWellFormed (l.binds.toList ++ bound) ls

end Sys2Proof
end

