-- ==== Sys2Proof/Decode.lean ====
section
/-! DEFINITION. The formats REQ and RSP, the decoder and the encoder (20_memory.md R46; 30_encoding.md R60 to R67, R70). -/

namespace Sys2Proof

/-! ### A field element on a bus (R46) -/

/-- Limb i of a 320-bit bus: bits [64·i + 63 : 64·i]. -/
def busLimb (x : BitVec 320) (i : Nat) : Limb := x.extractLsb' (64 * i) 64

/-- The element a 320-bit bus carries (R46, R63: verbatim). -/
def FE.ofBus (x : BitVec 320) : FE :=
  ⟨busLimb x 0, busLimb x 1, busLimb x 2, busLimb x 3, busLimb x 4⟩

/-- The 320 bits that carry an element: limb 0 in bits [63:0], limb 4 in bits [319:256] (R46). -/
def FE.toBus (a : FE) : BitVec 320 := a.l4 ++ a.l3 ++ a.l2 ++ a.l1 ++ a.l0

/-! ### The request word {req_op, req_b, req_a} (R60) -/

/-- The 644-bit word of a request: OP in [643:640], B in [639:320], A in [319:0]. -/
def Request.word (r : Request) : BitVec 644 := r.op ++ r.b.toBus ++ r.a.toBus

/-- The three port fields of a 644-bit request word. -/
def Request.ofWord (w : BitVec 644) : Request :=
  { op := w.extractLsb' 640 4, b := FE.ofBus (w.extractLsb' 320 320), a := FE.ofBus (w.extractLsb' 0 320) }

/-- The opcode map (R62, R64): OP alone selects the operation. -/
def Instr.ofOp (op : BitVec 4) (a b : FE) : Instr :=
  match op.toNat with
  | 0x0 => .add a b
  | 0x1 => .sub a b
  | 0x2 => .reduce a b
  | 0x3 => .mult a b
  | 0x4 => .op4 a b
  | 0x5 => .op5 a b
  | 0x6 => .op6 a b
  | 0x7 => .op7 a b
  | 0x8 => .op8 a b
  | 0x9 => .op9 a b
  | 0xA => .opA a b
  | 0xB => .opB a b
  | 0xC => .opC a b
  | 0xD => .opD a b
  | 0xE => .opE a b
  | _ => .opF a b

/-- The instruction a request payload stands for; OP alone selects it (R62), and operands are taken verbatim (R63). Total: all
16 codes have a row in the opcode table. -/
def Request.decode (r : Request) : Instr := Instr.ofOp r.op r.a r.b

/-- Why a word is no request. -/
inductive DecodeError where
  /-- The word is not 644 bits long (R67). -/
  | wrongLength
  /-- The number has a bit beyond bit 643 (R67). -/
  | beyondWord
  deriving DecidableEq, Repr

/-- The decoder on `len` bits with the value `w`: a 644-bit word decodes, any other length is rejected by name (R67). -/
def decode (len w : Nat) : Except DecodeError Instr :=
  if len ≠ 644 then .error .wrongLength
  else if 2 ^ 644 ≤ w then .error .beyondWord
  else .ok (Request.ofWord (BitVec.ofNat 644 w)).decode

/-! ### The encoder -/

/-- The OP field of an instruction (R62, R64). -/
def Instr.opcode : Instr → BitVec 4
  | .add _ _ => 0x0
  | .sub _ _ => 0x1
  | .reduce _ _ => 0x2
  | .mult _ _ => 0x3
  | .op4 _ _ => 0x4
  | .op5 _ _ => 0x5
  | .op6 _ _ => 0x6
  | .op7 _ _ => 0x7
  | .op8 _ _ => 0x8
  | .op9 _ _ => 0x9
  | .opA _ _ => 0xA
  | .opB _ _ => 0xB
  | .opC _ _ => 0xC
  | .opD _ _ => 0xD
  | .opE _ _ => 0xE
  | .opF _ _ => 0xF

/-- Operand A of an instruction. -/
def Instr.operandA : Instr → FE
  | .add a _ => a
  | .sub a _ => a
  | .reduce a _ => a
  | .mult a _ => a
  | .op4 a _ => a
  | .op5 a _ => a
  | .op6 a _ => a
  | .op7 a _ => a
  | .op8 a _ => a
  | .op9 a _ => a
  | .opA a _ => a
  | .opB a _ => a
  | .opC a _ => a
  | .opD a _ => a
  | .opE a _ => a
  | .opF a _ => a

/-- Operand B of an instruction. -/
def Instr.operandB : Instr → FE
  | .add _ b => b
  | .sub _ b => b
  | .reduce _ b => b
  | .mult _ b => b
  | .op4 _ b => b
  | .op5 _ b => b
  | .op6 _ b => b
  | .op7 _ b => b
  | .op8 _ b => b
  | .op9 _ b => b
  | .opA _ b => b
  | .opB _ b => b
  | .opC _ b => b
  | .opD _ b => b
  | .opE _ b => b
  | .opF _ b => b

/-- The payload the host drives for an instruction. -/
def Instr.request (i : Instr) : Request := { op := i.opcode, a := i.operandA, b := i.operandB }

/-- The 644-bit request word of an instruction (R60). -/
def encode (i : Instr) : BitVec 644 := i.request.word

/-! ### The response word {rsp_st, rsp_c} (R61) -/

/-- The 322-bit word of a response: ST in [321:320], C in [319:0]. -/
def Response.word (r : Response) : BitVec 322 := r.st ++ r.c.toBus

/-- The response a 322-bit word carries. -/
def Response.ofWord (w : BitVec 322) : Response :=
  { c := FE.ofBus (w.extractLsb' 0 320), st := w.extractLsb' 320 2 }

/-! ### The numbering of spec/opcode_table.json -/

/-- The request whose bits are `w` as the opcode table numbers them. A number of at least 644 bits is the request word
of R60. A shorter one is the table's `match` number, whose bits 3..0 are the OP field ("match_scope": OP field,
request-word bits [643:640]); every operand bit is 0 then. Bits of `w` beyond that are dropped: beyond bit 643 of a full word,
beyond bit 3 of a short one. All of this is the model's choice, log entry 13. -/
def tableRequest (nbits w : Nat) : Request :=
  if 644 ≤ nbits then Request.ofWord (BitVec.ofNat 644 w)
  else { op := BitVec.ofNat 4 w, a := FE.zero, b := FE.zero }

/-- The instruction the decoder reads from a word numbered as the opcode table numbers it. A short word is on the ports as
`tableRequest` lays it out; a full one goes through `decode`, which refuses bits beyond bit 643. That any `nbits` of 644 or more
(648 is 644 in whole bytes) means a full word of 644 bits is the model's choice, log entry 13. -/
def decodeTableWord (nbits w : Nat) : Option Instr :=
  if 644 ≤ nbits then (decode 644 w).toOption else some (tableRequest nbits w).decode

end Sys2Proof
end

