-- ==== Sys2Proof/Machine/State.lean ====
section
/-! DEFINITION. The state of the block and of the agents around it, the reasons a step can stop, reset and power-on
(10_state.md R24 to R32; 20_memory.md R41 to R44; 70_reset_and_hazards.md R180 to R185). -/

namespace Sys2Proof.Machine

/-- One entry of the in-flight queue: the response the request will produce, and whether it is computed (R28). -/
structure Entry where
  resp : Response
  done : Bool
  deriving DecidableEq, Repr

/-- What the ports show the block at one rising edge of `clk` (R41, R42, R180), with the block's own choice for
`req_ready` in the cycle before it (R41: free unless `rst` = 1 or Q is full). -/
structure Edge where
  rst      : Bool
  reqValid : Bool
  req      : Request
  rspReady : Bool
  willing  : Bool
  deriving DecidableEq, Repr

/-- One move of the host, the environment or the block. The first five are the untimed steps of R44; `edge` is one rising
edge of `clk` with its sampled signals. -/
inductive Move where
  /-- Accept (host): the offered request is accepted. -/
  | accept (r : Request)
  /-- Finish (block): the oldest unfinished entry is finished. -/
  | finish
  /-- Take (host): the oldest response is observed and removed. -/
  | take
  /-- Reset (environment): `rst` is asserted. -/
  | reset
  /-- Release (environment): `rst` falls. -/
  | release
  /-- One rising edge of `clk`. -/
  | edge (e : Edge)
  deriving DecidableEq, Repr

/-- The state. `q` and `rst` are the spec's pair (Q, R) (R30); every other field is the model's own and is declared in the
assumption log (entries 1 to 9). -/
structure State where
  /-- Q, the in-flight queue, oldest first (R28). -/
  q : List Entry
  /-- R, true while reset is asserted (R30). -/
  rst : Bool
  /-- The build parameters (R7). Not state of the block: no step changes them. -/
  params : Params
  /-- How many free values have been drawn (R154). -/
  draws : Nat
  /-- A rising edge with `rst` = 1 has happened since power-on (R183). -/
  sawReset : Bool
  /-- The request the host offers and the block has not yet accepted (R185). -/
  waiting : Option Request
  /-- The host's record of the requests accepted since reset, oldest first (R51). -/
  accepted : List Instr
  /-- The responses the host has observed since reset, oldest first (R44, R51). -/
  taken : List Response
  /-- The agenda: the moves still to come. -/
  moves : List Move
  deriving DecidableEq, Repr

/-- The block has no fault: "The block raises no exception" (R150). No step answers one. -/
inductive Fault where
  deriving DecidableEq, Repr

/-- Why a step has no meaning. Every one is safe: the model stops where the spec gives no meaning. -/
inductive Refusal where
  /-- An instruction without a meaning in this model; only `exec`'s refused arms raise it. There is none. Safe. -/
  | notModelled (mnemonic : String)
  /-- The block is used before the first reset edge (R183, U8). Raised by acceptance, Take, Finish and Release, and by a
  rising edge at which the host offers a request or is ready for a response. Safe. -/
  | beforeFirstReset
  /-- Accept, Finish or Take while `rst` = 1 (R44: it needs `rst` = 0). Safe. -/
  | resetAsserted
  /-- Accept while Q holds DEPTH entries (R41, R44). Safe. -/
  | queueFull
  /-- Take while `rsp_valid` = 0 (R42, R44). Safe. -/
  | noResponse
  /-- Finish while no entry is unfinished (R44). Safe. -/
  | nothingToFinish
  /-- Release while `rst` is not asserted (R44). Safe. -/
  | notInReset
  /-- The host changed or withdrew a request that waits to be accepted (R185, U9). Raised at any offer. Safe. -/
  | requestChanged
  deriving DecidableEq, Repr

/-- What one step answers. -/
abbrev Result := Host.Outcome State Fault Refusal

/-- The machine right after reset: Q empty (R31), `rst` fallen (R182), nothing waiting, no record, no agenda. The parameters
are R7's defaults with DEPTH = 2 (log entries 1, 2); log entries 3 to 9 name the other values. -/
def State.reset : State :=
  { q := [], rst := false, params := Params.default, draws := 0, sawReset := true, waiting := none,
    accepted := [], taken := [], moves := [] }

/-- The machine at power-on, before the first reset edge: no output has a meaning (R183). Log entry 7. -/
def State.powerOn : State := { State.reset with sawReset := false }

end Sys2Proof.Machine
end

