-- ==== Sys2Proof/Machine/Operands.lean ====
section
/-! DEFINITION. How operands are read and results narrowed: `s64`, the arithmetic shift by 51, limbs by index
(00_scope.md R8, R9; 20_memory.md R46). -/

namespace Sys2Proof.Machine

/-- `s64(v)`: the limb whose value is the unique w in [-2^63, 2^63 - 1] with w ≡ v (mod 2^64) (R8). -/
def s64 (v : Int) : Limb := BitVec.ofInt 64 v

/-- `x >> 51`: the arithmetic shift right, floor(x / 2^51) (R8). -/
def shr51 (x : Int) : Int := x / Config.radix

/-- `x << 51`: x · 2^51 (R8). -/
def shl51 (x : Int) : Int := x * Config.radix

/-- The exact integer lies in [-2^63, 2^63 - 1]. -/
def fits64 (v : Int) : Bool := decide (Config.limbMin ≤ v) && decide (v ≤ Config.limbMax)

/-- `a[i]` (R8, R9). -/
def limb (a : FE) (i : Fin 5) : Limb :=
  match i with
  | 0 => a.l0
  | 1 => a.l1
  | 2 => a.l2
  | 3 => a.l3
  | 4 => a.l4

/-- `a[i]` as an integer (R8). -/
def limbValue (a : FE) (i : Fin 5) : Int := (limb a i).value

/-- `t[i] <- v` on a working copy. -/
def setLimb (a : FE) (i : Fin 5) (v : Limb) : FE :=
  match i with
  | 0 => { a with l0 := v }
  | 1 => { a with l1 := v }
  | 2 => { a with l2 := v }
  | 3 => { a with l3 := v }
  | 4 => { a with l4 := v }

/-- The element whose limb i is `s64` of the i-th integer. -/
def ofInts (v0 v1 v2 v3 v4 : Int) : FE := ⟨s64 v0, s64 v1, s64 v2, s64 v3, s64 v4⟩

end Sys2Proof.Machine
end

