-- ==== Sys2Proof/Machine/Flags.lean ====
section
/-! DEFINITION. The status field ST (10_state.md R25; 30_encoding.md R64, R65; 60_exceptions.md R151 to R153). The block has
no condition codes and no flags (10_state.md R23). -/

namespace Sys2Proof.Machine

/-- `{PRE_VIOL, ILLEGAL_OP}`: bit 1 and bit 0 of ST (R25). -/
def statusBits (preViol illegalOp : Bool) : Status := BitVec.ofBool preViol ++ BitVec.ofBool illegalOp

/-- ILLEGAL_OP, bit 0 of ST (R25). -/
def illegalOp (st : Status) : Bool := st.getLsbD 0

/-- PRE_VIOL, bit 1 of ST (R25). -/
def preViol (st : Status) : Bool := st.getLsbD 1

/-- ST of a legal request: `{pv, 0}` with pv = (chk = 1) and not pre_ok (R65, R152). -/
def legalStatus (p : Params) (preOk : Bool) : Status := statusBits (p.checkPrecond && !preOk) false

/-- ST of a reserved code: ILLEGAL_OP set, PRE_VIOL clear whatever the operands (R64, R151, R153). -/
def reservedStatus : Status := statusBits false true

end Sys2Proof.Machine
end

