-- ==== Sys2Proof/Machine/Ops.lean ====
section
/-! DEFINITION. The named operations over the state that the meanings and the moves share: the port values
(20_memory.md R41, R42), acceptance of a request (R41, R44; 30_encoding.md R64, R65; 60_exceptions.md R154), Finish, Take,
Reset and Release (R44; 70_reset_and_hazards.md R180). There is no exception to take or to return from
(60_exceptions.md R150, R156, R157). -/

namespace Sys2Proof.Machine

/-! ### Port values -/

/-- The block is in operation: it has been reset and `rst` is 0. -/
def State.running (s : State) : Prop := s.sawReset = true ∧ s.rst = false

/-- Q holds fewer than DEPTH entries (R41). -/
def State.hasRoom (s : State) : Bool := decide (s.q.length < s.params.depth)

/-- The states in which R41 allows `req_ready` = 1, so in which Accept is enabled (R44), after the first reset (R183). -/
def State.canAccept (s : State) : Bool := s.sawReset && !s.rst && s.hasRoom

/-- `req_ready`, given the block's own choice for the cycle: 0 while `rst` = 1 and while Q is full (R41). -/
def State.reqReady (s : State) (willing : Bool) : Bool := willing && s.canAccept

/-- `rsp_valid`: Q is not empty and its oldest entry is done (R42). -/
def State.rspValid (s : State) : Bool :=
  match s.q with
  | [] => false
  | e :: _ => e.done

/-- The values on `rsp_c` and `rsp_st`. They have none while `rsp_valid` = 0 (R32) and before the first reset (R183). -/
def State.rspPort (s : State) : Option Response :=
  if s.sawReset && s.rspValid then s.q.head?.map Entry.resp else none

/-- The value on `req_ready`: none before the first reset edge (R183). -/
def State.reqReadyPort (s : State) (willing : Bool) : Option Bool :=
  if s.sawReset then some (s.reqReady willing) else none

/-- The value on `rsp_valid`: none before the first reset edge (R183). -/
def State.rspValidPort (s : State) : Option Bool := if s.sawReset then some s.rspValid else none

/-! ### Acceptance -/

/-- Appends one entry to Q with `done` = false (R41, R44) and records the request for the host. -/
def State.enqueue (s : State) (i : Instr) (r : Response) : State :=
  { s with q := s.q ++ [{ resp := r, done := false }], accepted := s.accepted ++ [i] }

/-- Accept (R44): needs `rst` = 0 and |Q| < DEPTH; `r` is the response of `i`, `n` the free values it used up. -/
def acceptEntry (i : Instr) (r : Response) (n : Nat) (s : State) : Result :=
  if !s.sawReset then .refused .beforeFirstReset
  else if s.rst then .refused .resetAsserted
  else if !s.hasRoom then .refused .queueFull
  else .next { s.enqueue i r with draws := s.draws + n }

/-- The request's result is a draw: OOR_RESULT = `Arbitrary` and the precondition fails (R154). -/
def usesDraw (p : Params) (preOk : Bool) : Bool :=
  match p.oorResult with
  | .wrap => false
  | .arbitrary => !preOk

/-- C of a legal request: the datapath result, or draw number `n` where R154 makes it one (R65). -/
def legalResult (p : Params) (preOk : Bool) (c : FE) (n : Nat) : FE :=
  if usesDraw p preOk then FE.ofBus (Config.freeElement n) else c

/-- Acceptance of a legal request (R65): C is `legalResult`, ST is `{pv, 0}`. -/
def acceptLegal (i : Instr) (preOk : Bool) (c : FE) (s : State) : Result :=
  acceptEntry i { c := legalResult s.params preOk c s.draws, st := legalStatus s.params preOk }
    (usesDraw s.params preOk).toNat s

/-- Acceptance of a reserved code (R64, R65): C = (0,0,0,0,0), ST = 0b01, no operand read. -/
def acceptReserved (i : Instr) (s : State) : Result :=
  acceptEntry i { c := FE.zero, st := reservedStatus } 0 s

/-! ### The other untimed steps -/

/-- The queue with its oldest unfinished entry finished, if there is one (R44 Finish). -/
def finishOldest : List Entry → Option (List Entry)
  | [] => none
  | e :: es => if e.done then (finishOldest es).map (e :: ·) else some ({ e with done := true } :: es)

/-- Finish (R44): needs `rst` = 0 and an unfinished entry. -/
def finishStep (s : State) : Result :=
  if !s.sawReset then .refused .beforeFirstReset
  else if s.rst then .refused .resetAsserted
  else
    match finishOldest s.q with
    | some q' => .next { s with q := q' }
    | none => .refused .nothingToFinish

/-- The effect of taking a response: the host observes the oldest entry's (C, ST) and the entry leaves Q (R42, R44). -/
def State.takeOldest (s : State) : State :=
  match s.q with
  | [] => s
  | e :: es => { s with q := es, taken := s.taken ++ [e.resp] }

/-- Take (R44): needs `rst` = 0, Q not empty and its oldest entry done. -/
def takeStep (s : State) : Result :=
  if !s.sawReset then .refused .beforeFirstReset
  else if s.rst then .refused .resetAsserted
  else if s.rspValid then .next s.takeOldest
  else .refused .noResponse

/-- Reset (R44, R180, R181): Q becomes empty and `rst` is asserted; work in flight is dropped with no response, and the
count of R51 starts afresh. Parameters are unchanged (R31). -/
def State.assertReset (s : State) : State :=
  { s with q := [], rst := true, sawReset := true, accepted := [], taken := [] }

/-- `rst` falls (R44, R182). -/
def State.releaseReset (s : State) : State := { s with rst := false }

/-- Release (R44): needs `rst` asserted. -/
def releaseStep (s : State) : Result :=
  if !s.sawReset then .refused .beforeFirstReset
  else if s.rst then .next s.releaseReset
  else .refused .notInReset

/-- The block's own move when no move stands on the agenda: it finishes the oldest unfinished entry, and is idle when there
is none (R28, R56, R163). Log entry 4. -/
def blockMove (s : State) : Result :=
  if s.sawReset && !s.rst then
    match finishOldest s.q with
    | some q' => .next { s with q := q' }
    | none => .next s
  else .next s

/-- Handshake stability (R185): a request that waits must still be offered, unchanged. -/
def State.offerAllowed (s : State) (offer : Option Request) : Bool :=
  match s.waiting with
  | none => true
  | some r => offer == some r

end Sys2Proof.Machine
end

