-- ==== Sys2Proof/Machine/AddSub.lean ====
section
/-! DEFINITION. ADD and SUB (40_add_sub.md R80 to R84). -/

namespace Sys2Proof.Machine

/-- ADD's datapath: c[i] = s64(a[i] + b[i]), five independent lanes (R81, R82, R84). -/
def addDatapath (a b : FE) : FE :=
  ofInts (a.l0.value + b.l0.value) (a.l1.value + b.l1.value) (a.l2.value + b.l2.value)
    (a.l3.value + b.l3.value) (a.l4.value + b.l4.value)

/-- SUB's datapath: c[i] = s64(a[i] - b[i]) (R81, R83, R84). -/
def subDatapath (a b : FE) : FE :=
  ofInts (a.l0.value - b.l0.value) (a.l1.value - b.l1.value) (a.l2.value - b.l2.value)
    (a.l3.value - b.l3.value) (a.l4.value - b.l4.value)

/-- pre_ok(ADD, A, B): every exact lane sum fits 64 bits (R80, R152). -/
def addPreOk (a b : FE) : Bool :=
  fits64 (a.l0.value + b.l0.value) && fits64 (a.l1.value + b.l1.value) && fits64 (a.l2.value + b.l2.value)
    && fits64 (a.l3.value + b.l3.value) && fits64 (a.l4.value + b.l4.value)

/-- pre_ok(SUB, A, B): every exact lane difference fits 64 bits (R80, R152). -/
def subPreOk (a b : FE) : Bool :=
  fits64 (a.l0.value - b.l0.value) && fits64 (a.l1.value - b.l1.value) && fits64 (a.l2.value - b.l2.value)
    && fits64 (a.l3.value - b.l3.value) && fits64 (a.l4.value - b.l4.value)

/-- ADD (R82). -/
def execAdd (a b : FE) (s : State) : Result := acceptLegal (.add a b) (addPreOk a b) (addDatapath a b) s

/-- SUB (R83). -/
def execSub (a b : FE) (s : State) : Result := acceptLegal (.sub a b) (subPreOk a b) (subDatapath a b) s

end Sys2Proof.Machine
end

