-- ==== Sys2Proof/Machine/Reduce.lean ====
section
/-! DEFINITION. REDUCE (41_reduce.md R100 to R105). -/

namespace Sys2Proof.Machine

/-- The carry out of a limb: `t[i] >> 51` (R101, R105). -/
def carryOf (x : Limb) : Int := shr51 x.value

/-- The exact addition of `carry_step(i)`, the only one of REDUCE that can overflow (R100, R103). -/
def carrySum (i : Fin 4) (t : FE) : Int := limbValue t i.succ + carryOf (limb t i.castSucc)

/-- `carry_step(i)`, i in 0..3 (R101): t[i+1] <- s64(t[i+1] + carry); t[i] <- t[i] - (carry << 51).
The difference never overflows (R103), so its `s64` loses nothing. -/
def carryStep (i : Fin 4) (t : FE) : FE :=
  let carry := carryOf (limb t i.castSucc)
  let t' := setLimb t i.succ (s64 (carrySum i t))
  setLimb t' i.castSucc (s64 (limbValue t' i.castSucc - shl51 carry))

/-- `fold_step` (R105): t[0] <- t[0] + 19·carry; t[4] <- t[4] - (carry << 51). After the ripple neither overflows (R103). -/
def foldStep (t : FE) : FE :=
  let carry := carryOf t.l4
  { t with l0 := s64 (t.l0.value + Config.fold * carry), l4 := s64 (t.l4.value - shl51 carry) }

/-- The working copy after carry steps 0 to 3. -/
def rippled (a : FE) : FE := carryStep 3 (carryStep 2 (carryStep 1 (carryStep 0 a)))

/-- REDUCE's datapath: carry steps 0, 1, 2, 3, then the fold step (R102). -/
def reduceDatapath (a : FE) : FE := foldStep (rippled a)

/-- pre_ok(REDUCE, A, B): no exact addition t[i+1] + carry of a carry step leaves 64 bits (R100, R152). -/
def reducePreOk (a : FE) : Bool :=
  let t1 := carryStep 0 a
  let t2 := carryStep 1 t1
  let t3 := carryStep 2 t2
  fits64 (carrySum 0 a) && fits64 (carrySum 1 t1) && fits64 (carrySum 2 t2) && fits64 (carrySum 3 t3)

/-- REDUCE (R102). Operand B is not read (R66). -/
def execReduce (a b : FE) (s : State) : Result :=
  acceptLegal (.reduce a b) (reducePreOk a) (reduceDatapath a) s

end Sys2Proof.Machine
end

