-- ==== Sys2Proof/Machine/Mult.lean ====
section
/-! DEFINITION. MULT (42_mult.md R120 to R127, R133). The wide datapath is computed in `Int`, which R122 says the 136-bit
accumulator equals on every input (log entry 14). -/

namespace Sys2Proof.Machine

/-- The nine coefficients of step 1 (R121). -/
structure Coeffs where
  r0 : Int
  r1 : Int
  r2 : Int
  r3 : Int
  r4 : Int
  r5 : Int
  r6 : Int
  r7 : Int
  r8 : Int
  deriving DecidableEq, Repr

/-- The five wide coefficients of steps 2 and 3 (R123, R124). -/
structure Wide where
  r0 : Int
  r1 : Int
  r2 : Int
  r3 : Int
  r4 : Int
  deriving DecidableEq, Repr

/-- Step 1, schoolbook convolution: r[k] = Σ_{i+j=k} a[i]·b[j], exactly (R121). -/
def convolution (a b : FE) : Coeffs :=
  let a0 := a.l0.value
  let a1 := a.l1.value
  let a2 := a.l2.value
  let a3 := a.l3.value
  let a4 := a.l4.value
  let b0 := b.l0.value
  let b1 := b.l1.value
  let b2 := b.l2.value
  let b3 := b.l3.value
  let b4 := b.l4.value
  { r0 := a0 * b0
    r1 := a0 * b1 + a1 * b0
    r2 := a0 * b2 + a1 * b1 + a2 * b0
    r3 := a0 * b3 + a1 * b2 + a2 * b1 + a3 * b0
    r4 := a0 * b4 + a1 * b3 + a2 * b2 + a3 * b1 + a4 * b0
    r5 := a1 * b4 + a2 * b3 + a3 * b2 + a4 * b1
    r6 := a2 * b4 + a3 * b3 + a4 * b2
    r7 := a3 * b4 + a4 * b3
    r8 := a4 * b4 }

/-- Step 2, the fold of the high coefficients: r[k] += 19·r[k+5] for k = 0..3 (R123). -/
def foldHigh (r : Coeffs) : Wide :=
  { r0 := r.r0 + Config.fold * r.r5
    r1 := r.r1 + Config.fold * r.r6
    r2 := r.r2 + Config.fold * r.r7
    r3 := r.r3 + Config.fold * r.r8
    r4 := r.r4 }

/-- Step 3, one wide carry pass, exact (R124). -/
def wideCarryPass (r : Wide) : Wide :=
  let c0 := shr51 r.r0
  let r1 := r.r1 + c0
  let r0 := r.r0 - shl51 c0
  let c1 := shr51 r1
  let r2 := r.r2 + c1
  let r1 := r1 - shl51 c1
  let c2 := shr51 r2
  let r3 := r.r3 + c2
  let r2 := r2 - shl51 c2
  let c3 := shr51 r3
  let r4 := r.r4 + c3
  let r3 := r3 - shl51 c3
  let c4 := shr51 r4
  { r0 := r0 + Config.fold * c4, r1 := r1, r2 := r2, r3 := r3, r4 := r4 - shl51 c4 }

/-- Step 4, narrowing: n[k] = s64(r[k]) (R125). -/
def narrow (r : Wide) : FE := ofInts r.r0 r.r1 r.r2 r.r3 r.r4

/-- n, the result of steps 1 to 4. -/
def multNarrowed (a b : FE) : FE := narrow (wideCarryPass (foldHigh (convolution a b)))

/-- MULT's datapath: steps 1 to 4, then exactly two REDUCE passes (R126, R127). -/
def multDatapath (a b : FE) : FE := reduceDatapath (reduceDatapath (multNarrowed a b))

/-- The limb's magnitude is at most 2^52 - 1 (R120). -/
def multLimbOk (x : Limb) : Bool := decide (-Config.multLimbMax ≤ x.value) && decide (x.value ≤ Config.multLimbMax)

/-- Every limb of the element is inside MULT's bound (R120). -/
def multOperandOk (a : FE) : Bool :=
  multLimbOk a.l0 && multLimbOk a.l1 && multLimbOk a.l2 && multLimbOk a.l3 && multLimbOk a.l4

/-- pre_ok(MULT, A, B) (R120, R152). -/
def multPreOk (a b : FE) : Bool := multOperandOk a && multOperandOk b

/-- MULT (R127, R133). -/
def execMult (a b : FE) (s : State) : Result := acceptLegal (.mult a b) (multPreOk a b) (multDatapath a b) s

end Sys2Proof.Machine
end

