-- ==== Sys2Proof/Machine/Reserved.lean ====
section
/-! DEFINITION. The twelve reserved codes 0x4 to 0xF (30_encoding.md R64; 60_exceptions.md R151, R153): each is accepted like
any other request and answered in order with C = (0,0,0,0,0) and ST = 0b01. -/

namespace Sys2Proof.Machine

/-- OP 0x4, reserved (R64). -/
def execOp4 (a b : FE) (s : State) : Result := acceptReserved (.op4 a b) s

/-- OP 0x5, reserved (R64). -/
def execOp5 (a b : FE) (s : State) : Result := acceptReserved (.op5 a b) s

/-- OP 0x6, reserved (R64). -/
def execOp6 (a b : FE) (s : State) : Result := acceptReserved (.op6 a b) s

/-- OP 0x7, reserved (R64). -/
def execOp7 (a b : FE) (s : State) : Result := acceptReserved (.op7 a b) s

/-- OP 0x8, reserved (R64). -/
def execOp8 (a b : FE) (s : State) : Result := acceptReserved (.op8 a b) s

/-- OP 0x9, reserved (R64). -/
def execOp9 (a b : FE) (s : State) : Result := acceptReserved (.op9 a b) s

/-- OP 0xA, reserved (R64). -/
def execOpA (a b : FE) (s : State) : Result := acceptReserved (.opA a b) s

/-- OP 0xB, reserved (R64). -/
def execOpB (a b : FE) (s : State) : Result := acceptReserved (.opB a b) s

/-- OP 0xC, reserved (R64). -/
def execOpC (a b : FE) (s : State) : Result := acceptReserved (.opC a b) s

/-- OP 0xD, reserved (R64). -/
def execOpD (a b : FE) (s : State) : Result := acceptReserved (.opD a b) s

/-- OP 0xE, reserved (R64). -/
def execOpE (a b : FE) (s : State) : Result := acceptReserved (.opE a b) s

/-- OP 0xF, reserved (R64). -/
def execOpF (a b : FE) (s : State) : Result := acceptReserved (.opF a b) s

end Sys2Proof.Machine
end

