-- ==== Sys2Proof/Machine/Dispatch.lean ====
section
/-! DEFINITION. One arm per constructor of Instr. -/

namespace Sys2Proof.Machine

def exec (i : Instr) (s : State) : Host.Outcome State Fault Refusal :=
  match i with
  | .add a b => Sys2Proof.Machine.execAdd a b s
  | .sub a b => Sys2Proof.Machine.execSub a b s
  | .reduce a b => Sys2Proof.Machine.execReduce a b s
  | .mult a b => Sys2Proof.Machine.execMult a b s
  | .op4 a b => Sys2Proof.Machine.execOp4 a b s
  | .op5 a b => Sys2Proof.Machine.execOp5 a b s
  | .op6 a b => Sys2Proof.Machine.execOp6 a b s
  | .op7 a b => Sys2Proof.Machine.execOp7 a b s
  | .op8 a b => Sys2Proof.Machine.execOp8 a b s
  | .op9 a b => Sys2Proof.Machine.execOp9 a b s
  | .opA a b => Sys2Proof.Machine.execOpA a b s
  | .opB a b => Sys2Proof.Machine.execOpB a b s
  | .opC a b => Sys2Proof.Machine.execOpC a b s
  | .opD a b => Sys2Proof.Machine.execOpD a b s
  | .opE a b => Sys2Proof.Machine.execOpE a b s
  | .opF a b => Sys2Proof.Machine.execOpF a b s

end Sys2Proof.Machine
end

