-- ==== Sys2Proof/Machine/Channels.lean ====
section
/-! DEFINITION. The two channels (20_memory.md R41, R42, R44, R45, R49; 70_reset_and_hazards.md R180, R183, R185): what an
offered request, an untimed step and a rising edge of `clk` do. -/

namespace Sys2Proof.Machine

/-- The state in which no request waits on the request channel. -/
def State.clearWaiting (s : State) : State := { s with waiting := none }

/-- The request the host drives at an edge, if `req_valid` = 1. -/
def Edge.offer (e : Edge) : Option Request := if e.reqValid then some e.req else none

/-- Accept (R44): the request on the channel is decoded and run; a waiting request must be the one accepted (R185). -/
def acceptMove (r : Request) (s : State) : Result :=
  if s.offerAllowed (some r) then exec r.decode s.clearWaiting else .refused .requestChanged

/-- A rising edge outside reset: the take removes the entry that was oldest before the edge, the acceptance appends the
new entry, and `req_ready` is judged on the queue before the edge (R41, R42, R45). A request that is not accepted waits. -/
def edgeRun (e : Edge) (s : State) : Result :=
  let s' := if e.rspReady && s.rspValid then s.takeOldest else s
  if e.reqValid && s.reqReady e.willing then exec e.req.decode s'.clearWaiting
  else .next { s' with waiting := e.offer }

/-- One rising edge of `clk`. With `rst` = 1 it is Reset (R180). With `rst` = 0 right after an edge with `rst` = 1 it is
Release: `req_ready` and `rsp_valid` were 0 in the cycle before it (R180), so nothing is accepted or taken (log entry 10). -/
def edgeMove (e : Edge) (s : State) : Result :=
  if !s.offerAllowed e.offer then .refused .requestChanged
  else if e.rst then .next { s.assertReset with waiting := e.offer }
  else if !s.sawReset then
    if e.reqValid || e.rspReady then .refused .beforeFirstReset else .next s
  else if s.rst then .next { s.releaseReset with waiting := e.offer }
  else edgeRun e s

/-- One move of the agenda (R44). -/
def runMove (m : Move) (s : State) : Result :=
  match m with
  | .accept r => acceptMove r s
  | .finish => finishStep s
  | .take => takeStep s
  | .reset => .next s.assertReset
  | .release => releaseStep s
  | .edge e => edgeMove e s

/-- The state whose next move is the acceptance of `r`. No other request waits on the channel then. -/
def State.offerNext (s : State) (r : Request) : State := { s with waiting := none, moves := .accept r :: s.moves }

/-- The machine's step: the head of the agenda moves; with an empty agenda the block moves by itself. -/
def nextStep (s : State) : Result :=
  match s.moves with
  | [] => blockMove s
  | m :: ms => runMove m { s with moves := ms }

end Sys2Proof.Machine
end

