-- ==== Sys2Proof/Machine/Step.lean ====
section
/-! DEFINITION. The step function and the placing of a request where the next step finds it. -/

namespace Sys2Proof.Machine

/-- One step of the machine (20_memory.md R44): the head of the agenda, or the block's own move. -/
def step (s : State) : Host.Outcome State Fault Refusal := nextStep s

/-- `s` with the request whose bits are `w` (numbered as spec/opcode_table.json numbers them) as the next move, on a channel
on which no other request waits (log entry 3). Bits of `w` beyond the request are dropped (`tableRequest`, log entry 13). -/
def State.withFetchWord (s : State) (nbits w : Nat) : State := s.offerNext (tableRequest nbits w)

end Sys2Proof.Machine
end

