-- ==== Sys2Proof/Machine/Accumulator.lean ====
section
/-! DEFINITION. MULT steps 1 to 4 as the hardware computes them, in signed accumulators of ACC_W = 136 bits per coefficient
(00_scope.md R7; 42_mult.md R122). The machine runs `multNarrowed`, the same computation in `Int`; R122 says that the two agree
on every input. Nothing here is state: the accumulator is transient inside one operation (10_state.md R29). -/

namespace Sys2Proof.Machine

/-- One accumulator, ACC_W = 136 bits (R7). -/
abbrev Acc := BitVec 136

/-- A limb read into an accumulator: sign extension. -/
def accOf (x : Limb) : Acc := x.signExtend 136

/-- The constant FOLD in an accumulator. -/
def accFold : Acc := 19

/-- The five accumulators of steps 2 and 3. -/
structure AccWide where
  r0 : Acc
  r1 : Acc
  r2 : Acc
  r3 : Acc
  r4 : Acc
  deriving DecidableEq, Repr

/-- Steps 1 and 2 in 136-bit arithmetic: the five folded coefficients (R121, R123). -/
def accFolded (a b : FE) : AccWide :=
  let a0 := accOf a.l0
  let a1 := accOf a.l1
  let a2 := accOf a.l2
  let a3 := accOf a.l3
  let a4 := accOf a.l4
  let b0 := accOf b.l0
  let b1 := accOf b.l1
  let b2 := accOf b.l2
  let b3 := accOf b.l3
  let b4 := accOf b.l4
  { r0 := a0 * b0 + accFold * (a1 * b4 + a2 * b3 + a3 * b2 + a4 * b1)
    r1 := a0 * b1 + a1 * b0 + accFold * (a2 * b4 + a3 * b3 + a4 * b2)
    r2 := a0 * b2 + a1 * b1 + a2 * b0 + accFold * (a3 * b4 + a4 * b3)
    r3 := a0 * b3 + a1 * b2 + a2 * b1 + a3 * b0 + accFold * (a4 * b4)
    r4 := a0 * b4 + a1 * b3 + a2 * b2 + a3 * b1 + a4 * b0 }

/-- Step 3 in 136-bit arithmetic, with the arithmetic shift right (R124). -/
def accCarryPass (r : AccWide) : AccWide :=
  let c0 := r.r0.sshiftRight 51
  let r1 := r.r1 + c0
  let r0 := r.r0 - c0 <<< 51
  let c1 := r1.sshiftRight 51
  let r2 := r.r2 + c1
  let r1 := r1 - c1 <<< 51
  let c2 := r2.sshiftRight 51
  let r3 := r.r3 + c2
  let r2 := r2 - c2 <<< 51
  let c3 := r3.sshiftRight 51
  let r4 := r.r4 + c3
  let r3 := r3 - c3 <<< 51
  let c4 := r4.sshiftRight 51
  { r0 := r0 + accFold * c4, r1 := r1, r2 := r2, r3 := r3, r4 := r4 - c4 <<< 51 }

/-- Step 4: the low 64 bits of each accumulator (R125). -/
def accNarrow (r : AccWide) : FE :=
  ⟨r.r0.setWidth 64, r.r1.setWidth 64, r.r2.setWidth 64, r.r3.setWidth 64, r.r4.setWidth 64⟩

/-- Steps 1 to 4 in the 136-bit accumulators. -/
def accMultNarrowed (a b : FE) : FE := accNarrow (accCarryPass (accFolded a b))

end Sys2Proof.Machine
end

