-- ==== Sys2Proof/Machine/Fairness.lean ====
section
/-! DEFINITION. Infinite runs and the fairness assumptions of 20_memory.md R56. `step` and the agenda leave the block every
choice of when it finishes an entry and when it drives `req_ready` to 1; `BlockLive` says which infinite patterns of these
choices R56 assumes. It counts no cycles. -/

namespace Sys2Proof.Machine

/-- P holds at infinitely many positions of a run. -/
def infinitelyOften (P : Nat → Prop) : Prop := ∀ n, ∃ m, n ≤ m ∧ P m

/-- P holds from some position of a run on. -/
def eventuallyAlways (P : Nat → Prop) : Prop := ∃ n, ∀ m, n ≤ m → P m

/-- `σ` is an infinite run of the machine: at position n the agenda is the one move `μ n`, and `step` gives the next state. -/
def IsRun (σ : Nat → State) (μ : Nat → Move) : Prop := ∀ n, step { σ n with moves := [μ n] } = .next (σ (n + 1))

/-- From position n on, `rst` stays 0 and the block is in operation (R56: "`rst` stays 0 from some cycle on"). -/
def RunningFrom (n : Nat) (σ : Nat → State) : Prop := ∀ m, n ≤ m → (σ m).running

/-- At position n there is a clock cycle: a rising edge, with `P` of its signals. -/
def cycleAt (μ : Nat → Move) (P : Edge → Prop) (n : Nat) : Prop := ∃ e, μ n = .edge e ∧ P e

/-- The response with number k since reset (R51) has been taken, or its entry of Q has `done` = true. -/
def State.finishedNth (s : State) (k : Nat) : Prop :=
  k < s.taken.length ∨ ∃ e, s.q[k - s.taken.length]? = some e ∧ e.done = true

/-- R56, first item, from position n0 on: every entry of Q is finished at some later position. -/
def EveryEntryFinishes (n0 : Nat) (σ : Nat → State) : Prop :=
  ∀ n k, n0 ≤ n → k < (σ n).taken.length + (σ n).q.length → ∃ m, n ≤ m ∧ (σ m).finishedNth k

/-- R56, third item: if Q holds fewer than DEPTH entries from some cycle on, `req_ready` is 1 in infinitely many cycles. -/
def ReadyWhileRoom (σ : Nat → State) (μ : Nat → Move) : Prop :=
  eventuallyAlways (fun n => cycleAt μ (fun _ => True) n → (σ n).q.length < (σ n).params.depth) →
    infinitelyOften fun n => cycleAt μ (fun e => (σ n).reqReady e.willing = true) n

/-- The fairness assumptions on the block (R56, first and third item), for a run in which the clock does not stop: they bind
from every position after which `rst` stays 0. The second item follows from the first (`Obligations.TakingEveryResponseDrainsQueue`). -/
def BlockLive (σ : Nat → State) (μ : Nat → Move) : Prop :=
  infinitelyOften (cycleAt μ fun _ => True) →
    ∀ n0, RunningFrom n0 σ → EveryEntryFinishes n0 σ ∧ ReadyWhileRoom σ μ

/-- `rsp_ready` is 1 in infinitely many cycles (R56, second item). -/
def HostTakes (μ : Nat → Move) : Prop := infinitelyOften (cycleAt μ fun e => e.rspReady = true)

end Sys2Proof.Machine
end

