-- ==== Sys2Proof/Machine/Assembly.lean ====
section
/-! DEFINITION. The host's side of the text syntax: what a line asks the host to issue, the expansion of the
pseudo-instructions, and the binding of results (30_encoding.md R68, R69; 70_reset_and_hazards.md R186, R188). None of it
is behaviour of the block (R21, D22). -/

namespace Sys2Proof.Machine

/-- The results the host holds, by name. -/
abbrev Env := List (Ident × FE)

/-- The element a literal writes out (R69 NEW): the five limbs verbatim (R6, R63). -/
def Literal.toFE (x : Literal) : FE := ofInts x.l0 x.l1 x.l2 x.l3 x.l4

/-- The element an operand stands for: a literal, or the C of an earlier line (R68). -/
def Operand.eval (env : Env) : Operand → Option FE
  | .lit x => some (Literal.toFE x)
  | .name n => env.lookup n

/-- The raw code a mnemonic spells (R62, R68). -/
def Mnemonic.code : Mnemonic → BitVec 4
  | .add => 0x0
  | .sub => 0x1
  | .reduce => 0x2
  | .mult => 0x3
  | .op k => k

/-- The request of a mnemonic and its operand values. B of a `REDUCE` line is written as zero; any value gives the same
response (R66). -/
def Mnemonic.instr (m : Mnemonic) (xs : List FE) : Option Instr :=
  match m, xs with
  | .reduce, [a] => some (.reduce a FE.zero)
  | .reduce, _ => none
  | m, [a, b] => some (Instr.ofOp (Mnemonic.code m) a b)
  | _, _ => none

/-- A name longer than every name of the list, so different from each (R69: "t is a fresh name"). Log entry 20. -/
def freshIdent (used : List Ident) : Ident := List.replicate ((used.map List.length).sum + 1) 't'

/-- The lines a line expands to: `REDUCE2 x` is `t = REDUCE x` then `REDUCE t` (R69). -/
def Line.expand (fresh : Ident) : Line → List Line
  | .request r m xs => [.request r m xs]
  | .new r x => [.new r x]
  | .reduce2 r x => [.request (some fresh) .reduce [x], .request (some r) .reduce [.name fresh]]

/-- The request a line issues, once every name it uses is bound. NEW issues none; REDUCE2 is expanded first. -/
def Line.instr (env : Env) : Line → Option Instr
  | .request _ m xs => (xs.mapM (Operand.eval env)).bind (Mnemonic.instr m)
  | .new _ _ => none
  | .reduce2 _ _ => none

/-- The moves by which the host issues a request and takes its response before going on (R186). -/
def issueMoves (i : Instr) : List Move := [.accept i.request, .finish, .take]

/-- What the host holds after a line: NEW binds its literal, a request binds the C it has taken (R68, R69). The newest binding
stands first, so a name that two lines bind stands for the later one: the spec is silent there, DESIGN CHOICE, log entry 20. -/
def Line.bind (env : Env) (s : State) : Line → Env
  | .request (some n) _ _ =>
    match s.taken.getLast? with
    | some r => (n, r.c) :: env
    | none => env
  | .request none _ _ => env
  | .new n x => (n, Literal.toFE x) :: env
  | .reduce2 _ _ => env

/-- A list of lines with every REDUCE2 expanded; `used` are the names already in use. -/
def expandLines (used : List Ident) : List Line → List Line
  | [] => []
  | l :: ls =>
    let t := freshIdent (l.binds.toList ++ used)
    Line.expand t l ++ expandLines (t :: l.binds.toList ++ used) ls

end Sys2Proof.Machine
end

