-- ==== Sys2Proof/Machine/Text.lean ====
section
/-! DEFINITION. Reading one line of the text syntax (30_encoding.md R68, R69): its tokens, integers with '2^k' expressions,
elements and mnemonics. The grammar of the expressions is log entry 20. -/

namespace Sys2Proof.Machine

/-- A token of a line: a name or mnemonic, a number, or one of the marks ( ) , = + - ^. -/
inductive Token where
  | word (cs : List Char)
  | num (n : Nat)
  | mark (c : Char)
  deriving DecidableEq, Repr

def digitValue (c : Char) : Option Nat :=
  if '0' ≤ c ∧ c ≤ '9' then some (c.toNat - '0'.toNat)
  else if 'a' ≤ c ∧ c ≤ 'f' then some (c.toNat - 'a'.toNat + 10)
  else if 'A' ≤ c ∧ c ≤ 'F' then some (c.toNat - 'A'.toNat + 10)
  else none

/-- The number some digits write in a base, most significant digit first. -/
def readDigits (base acc : Nat) : List Char → Option Nat
  | [] => some acc
  | c :: cs =>
    match digitValue c with
    | some d => if d < base then readDigits base (acc * base + d) cs else none
    | none => none

/-- A decimal or `0x` hexadecimal number (R68). -/
def readNumber : List Char → Option Nat
  | [] => none
  | '0' :: 'x' :: c :: cs => readDigits 16 0 (c :: cs)
  | c :: cs => readDigits 10 0 (c :: cs)

def isWordChar (c : Char) : Bool := c.isAlphanum || c == '_' || c == '.'

def isMark (c : Char) : Bool := c == '(' || c == ')' || c == ',' || c == '=' || c == '+' || c == '-' || c == '^'

/-- The token of a run of word characters: a number if it begins with a digit. -/
def wordToken : List Char → Option (List Token)
  | [] => some []
  | c :: cs => if c.isDigit then (readNumber (c :: cs)).map (fun n => [.num n]) else some [.word (c :: cs)]

/-- The tokens of a line; `run` holds the word characters read so far, last first. A ';' begins a comment (R68). -/
def tokens (run : List Char) : List Char → Option (List Token)
  | [] => wordToken run.reverse
  | c :: cs =>
    if c == ';' then wordToken run.reverse
    else if isWordChar c then tokens (c :: run) cs
    else if c == ' ' then return (← wordToken run.reverse) ++ (← tokens [] cs)
    else if isMark c then return (← wordToken run.reverse) ++ .mark c :: (← tokens [] cs)
    else none

/-- A number, or a power of 2 written `2^k`. -/
def readTerm : List Token → Option (Int × List Token)
  | .num 2 :: .mark '^' :: .num k :: ts => some (2 ^ k, ts)
  | .num n :: ts => some (n, ts)
  | _ => none

/-- The terms after the first one, each with its sign. -/
def readTerms (acc : Int) : Nat → List Token → Option (Int × List Token)
  | fuel + 1, .mark '+' :: ts => (readTerm ts).bind fun (v, ts) => readTerms (acc + v) fuel ts
  | fuel + 1, .mark '-' :: ts => (readTerm ts).bind fun (v, ts) => readTerms (acc - v) fuel ts
  | _, ts => some (acc, ts)

/-- `int` of R68: a sum of terms, the first with an optional minus sign. -/
def readInt (ts : List Token) : Option (Int × List Token) :=
  match ts with
  | .mark '-' :: ts => (readTerm ts).bind fun (v, ts) => readTerms (-v) ts.length ts
  | ts => (readTerm ts).bind fun (v, ts) => readTerms v ts.length ts

/-- Reads one mark. -/
def readMark (c : Char) : List Token → Option (List Token)
  | .mark d :: ts => if c == d then some ts else none
  | _ => none

/-- `(int, int, int, int, int)` after its opening mark. -/
def readLiteral (ts : List Token) : Option (Literal × List Token) := do
  let (v0, ts) ← readInt ts
  let (v1, ts) ← readInt (← readMark ',' ts)
  let (v2, ts) ← readInt (← readMark ',' ts)
  let (v3, ts) ← readInt (← readMark ',' ts)
  let (v4, ts) ← readInt (← readMark ',' ts)
  return (⟨v0, v1, v2, v3, v4⟩, ← readMark ')' ts)

/-- `elem` of R68. -/
def readOperand : List Token → Option (Operand × List Token)
  | .mark '(' :: ts => (readLiteral ts).map fun (x, ts) => (.lit x, ts)
  | .word n :: ts => some (.name n, ts)
  | _ => none

/-- `mnemonic` of R68. -/
def readMnemonic : List Char → Option Mnemonic
  | ['A', 'D', 'D'] => some .add
  | ['S', 'U', 'B'] => some .sub
  | ['R', 'E', 'D', 'U', 'C', 'E'] => some .reduce
  | ['M', 'U', 'L', 'T'] => some .mult
  | ['O', 'P', '.', k] => (digitValue k).map fun d => .op (BitVec.ofNat 4 d)
  | _ => none

/-- The operands of a line to its end: one element, or two with a comma between. -/
def readOperands (ts : List Token) : Option (List Operand) := do
  let (x, ts) ← readOperand ts
  match ts with
  | [] => return [x]
  | ts =>
    let (y, ts) ← readOperand (← readMark ',' ts)
    if ts.isEmpty then return [x, y] else none

/-- The part of a line after `name =`, if any. NEW and REDUCE2 need the name (R69). -/
def readBody (result : Option Ident) (ts : List Token) : Option Line :=
  match result, ts with
  | some r, .word ['N', 'E', 'W'] :: ts =>
    match readOperands ts with
    | some [.lit x] => some (.new r x)
    | _ => none
  | some r, .word ['R', 'E', 'D', 'U', 'C', 'E', '2'] :: ts =>
    match readOperands ts with
    | some [x] => some (.reduce2 r x)
    | _ => none
  | result, .word m :: ts => do return .request result (← readMnemonic m) (← readOperands ts)
  | _, _ => none

/-- One line of the text syntax (R68). -/
def readLine (cs : List Char) : Option Line :=
  match tokens [] cs with
  | some (.word n :: .mark '=' :: ts) => readBody (some n) ts
  | some ts => readBody none ts
  | none => none

end Sys2Proof.Machine
end

