-- ==== Sys2Proof/Machine/Value.lean ====
section
/-! DEFINITION. What a field element stands for, and the terms of the spec for limb ranges (00_scope.md R2, R9 to R11). -/

namespace Sys2Proof.Machine

/-- val(a), the represented integer: Σ a[i]·2^(51·i), possibly negative (R9). -/
def val (a : FE) : Int :=
  a.l0.value + a.l1.value * 2 ^ 51 + a.l2.value * 2 ^ 102 + a.l3.value * 2 ^ 153 + a.l4.value * 2 ^ 204

/-- The field value val(a) mod p, in [0, p) (R9). -/
def fieldValue (a : FE) : Int := val a % Config.modulus

/-- Value equality, val(a) ≡ val(b) (mod p); a relation of the host, not of the block (R10, R189). -/
def sameFieldValue (a b : FE) : Prop := fieldValue a = fieldValue b

/-- A limb in [0, 2^51). -/
def limbNormalised (x : Limb) : Prop := 0 ≤ x.value ∧ x.value < Config.radix

/-- *normalised*: every limb is in [0, 2^51) (R11). -/
def normalised (a : FE) : Prop := ∀ i : Fin 5, limbNormalised (limb a i)

/-- *canonical*: normalised and val(a) < p (R11). -/
def canonical (a : FE) : Prop := normalised a ∧ val a < Config.modulus

end Sys2Proof.Machine
end

