-- ==== Sys2Proof/Safety.lean ====
section
/-! DEFINITION. The terms in which claims about the block are stated: the response relation F (30_encoding.md R65), the
invariant of the state, sequences of moves, and the host's duties (70_reset_and_hazards.md R187, R188). -/

namespace Sys2Proof.Machine

/-! ### The response relation F (R65, R154) -/

/-- OP is one of the reserved codes 0x4 to 0xF (R64). -/
def reservedCode (i : Instr) : Prop := 4 ≤ i.opcode.toNat

/-- pre_ok(op, A, B) of R152; a reserved code has no precondition (R153). -/
def preOk : Instr → Bool
  | .add a b => addPreOk a b
  | .sub a b => subPreOk a b
  | .reduce a _ => reducePreOk a
  | .mult a b => multPreOk a b
  | .op4 _ _ => true
  | .op5 _ _ => true
  | .op6 _ _ => true
  | .op7 _ _ => true
  | .op8 _ _ => true
  | .op9 _ _ => true
  | .opA _ _ => true
  | .opB _ _ => true
  | .opC _ _ => true
  | .opD _ _ => true
  | .opE _ _ => true
  | .opF _ _ => true

/-- Compute(op, A, B) of R65; C = (0,0,0,0,0) for a reserved code. -/
def computed : Instr → FE
  | .add a b => addDatapath a b
  | .sub a b => subDatapath a b
  | .reduce a _ => reduceDatapath a
  | .mult a b => multDatapath a b
  | .op4 _ _ => FE.zero
  | .op5 _ _ => FE.zero
  | .op6 _ _ => FE.zero
  | .op7 _ _ => FE.zero
  | .op8 _ _ => FE.zero
  | .op9 _ _ => FE.zero
  | .opA _ _ => FE.zero
  | .opB _ _ => FE.zero
  | .opC _ _ => FE.zero
  | .opD _ _ => FE.zero
  | .opE _ _ => FE.zero
  | .opF _ _ => FE.zero

/-- `r` is a response that F gives for `i` (R65): ILLEGAL_OP exactly for a reserved code, PRE_VIOL exactly when the check is
built in and the precondition of a legal code fails, and C the computed value unless R154 makes it any value. -/
structure Admits (p : Params) (i : Instr) (r : Response) : Prop where
  illegal : illegalOp r.st = true ↔ reservedCode i
  violation : preViol r.st = true ↔ p.checkPrecond = true ∧ preOk i = false
  value : p.oorResult = .wrap ∨ preOk i = true → r.c = computed i

/-! ### The invariant of the state -/

/-- What every reachable state meets. -/
structure State.Inv (s : State) : Prop where
  /-- DEPTH is at least 1 (R7). -/
  depth : 1 ≤ s.params.depth
  /-- The length of Q is at most DEPTH (R28). -/
  bounded : s.q.length ≤ s.params.depth
  /-- Q is empty while reset is asserted (R31, R180). -/
  emptyInReset : s.rst = true → s.q = []
  /-- Entries are finished oldest first (R44). -/
  finishedFirst : s.q.Pairwise (fun e f => f.done = true → e.done = true)
  /-- The n-th response, taken or in flight, is a response of the n-th request accepted since reset (R51, R65). -/
  inOrder : List.Forall₂ (Admits s.params) s.accepted (s.taken ++ s.q.map Entry.resp)
  /-- Nothing has happened before the first reset (R183). -/
  untouched : s.sawReset = false → s.q = [] ∧ s.accepted = [] ∧ s.taken = []

/-! ### Sequences of moves -/

/-- One result after another: `f` runs on the next state, a stop stays a stop. -/
def andThen (r : Result) (f : State → Result) : Result :=
  match r with
  | .next s => f s
  | .fault e => .fault e
  | .refused e => .refused e

/-- Some moves in order, without an agenda. -/
def runMoves : List Move → State → Result
  | [], s => .next s
  | m :: ms, s => andThen (runMove m s) (runMoves ms)

/-- The next state of a result, if it is one. -/
def nextState : Result → Option State
  | .next s => some s
  | .fault _ => none
  | .refused _ => none

/-- Accept is enabled (R41, R44): the block is in operation and Q holds fewer than DEPTH entries. -/
def State.acceptEnabled (s : State) : Prop := s.running ∧ s.q.length < s.params.depth

/-- `s` after the acceptance of `i` with response `r` (R41): one entry more in Q, not done, and the host's record of it. -/
def State.afterAccept (s : State) (i : Instr) (r : Response) : State :=
  { s with q := s.q ++ [{ resp := r, done := false }], accepted := s.accepted ++ [i] }

/-- How many entries of Q are unfinished. -/
def unfinished (q : List Entry) : Nat := (q.filter (fun e => !e.done)).length

/-! ### Ranges and congruence -/

/-- v lies in [-2^63, 2^63 - 1]. -/
def inRange64 (v : Int) : Prop := -2 ^ 63 ≤ v ∧ v ≤ 2 ^ 63 - 1

/-- Every limb of the element lies in [lo, hi]. -/
def limbsIn (lo hi : Int) (a : FE) : Prop := ∀ i : Fin 5, lo ≤ limbValue a i ∧ limbValue a i ≤ hi

/-- The host's duty towards MULT (R187): both operands meet R120. -/
def multDuty (a b : FE) : Prop := limbsIn (-(2 ^ 52 - 1)) (2 ^ 52 - 1) a ∧ limbsIn (-(2 ^ 52 - 1)) (2 ^ 52 - 1) b

/-- Congruence mod p (R2, R10). -/
def congrP (x y : Int) : Prop := (Config.modulus : Int) ∣ x - y

end Sys2Proof.Machine
end

