-- ==== Sys2Proof/Certificates/Slice0/Obligations.lean ====
section
/-! DEFINITION. The statements for the provers. Each docstring names the rules of spec/ that its statement formalises. -/

open Sys2Proof Sys2Proof.Machine

/-! ### Encoding -/

/-- Decoding the 644-bit word of any request gives the request back, with every operand at every value, both at the ports and
through the length check (30_encoding.md R60, R62, R63, R67). Every request is well-formed (R63). -/
def Obligations.DecodeInvertsEncode : Prop :=
  ∀ i : Instr, i.WellFormed → (Request.ofWord (encode i)).decode = i ∧ decode 644 (encode i).toNat = .ok i

/-- Encoding what a 644-bit word decodes to gives the word back: every word has one meaning and no bit is dropped. -/
def Obligations.EncodeInvertsDecode : Prop :=
  ∀ w : BitVec 644, encode (Request.ofWord w).decode = w ∧ decode 644 w.toNat = .ok (Request.ofWord w).decode

/-- R60: OP in bits [643:640], limb i of B in bits [320 + 64·i + 63 : 320 + 64·i], limb i of A in bits [64·i + 63 : 64·i], each limb
the two's complement integer of its field; the word has no other bit, so it determines the request. -/
def Obligations.RequestWordLayout : Prop :=
  ∀ r : Request,
    r.word.extractLsb' 640 4 = r.op ∧
    (∀ i : Fin 5, r.word.extractLsb' (320 + 64 * i.val) 64 = limb r.b i ∧
      limbValue r.b i = (r.word.extractLsb' (320 + 64 * i.val) 64).toInt) ∧
    (∀ i : Fin 5, r.word.extractLsb' (64 * i.val) 64 = limb r.a i ∧
      limbValue r.a i = (r.word.extractLsb' (64 * i.val) 64).toInt) ∧
    Request.ofWord r.word = r

/-- R61: ST in bits [321:320], limb i of C in bits [64·i + 63 : 64·i] of the 322-bit response word; each result limb is the two's
complement encoding of its value; the word determines the response. -/
def Obligations.ResponseWordLayout : Prop :=
  ∀ r : Response,
    r.word.extractLsb' 320 2 = r.st ∧
    (∀ i : Fin 5, r.word.extractLsb' (64 * i.val) 64 = BitVec.ofInt 64 (limbValue r.c i) ∧ inRange64 (limbValue r.c i)) ∧
    Response.ofWord r.word = r

/-- R62 and R64: the four operations and the twelve reserved codes, selected by OP alone, operands taken verbatim (R63). -/
def Obligations.OpcodeMapReadsOpAlone : Prop :=
  ∀ a b : FE,
    (Request.mk 0x0 a b).decode = .add a b ∧ (Request.mk 0x1 a b).decode = .sub a b ∧
    (Request.mk 0x2 a b).decode = .reduce a b ∧ (Request.mk 0x3 a b).decode = .mult a b ∧
    ∀ op : BitVec 4, 4 ≤ op.toNat →
      reservedCode (Request.mk op a b).decode ∧ (Request.mk op a b).decode.opcode = op ∧
      (Request.mk op a b).decode.operandA = a ∧ (Request.mk op a b).decode.operandB = b

/-- R67: there is one request length, 644 bits, and one format, that of R60: a word of that length decodes by its three fields, and any
other length, and a number that does not fit, is no request. Decoding takes no mode and no state. That such an input is refused, and
under which name, is the model's reading (log entry 16, DEDUCED). -/
def Obligations.OnlyOneRequestLength : Prop :=
  ∀ len w : Nat,
    (len ≠ 644 → decode len w = .error .wrongLength) ∧
    (2 ^ 644 ≤ w → decode 644 w = .error .beyondWord) ∧
    (w < 2 ^ 644 → decode 644 w = .ok (Request.ofWord (BitVec.ofNat 644 w)).decode)

/-- Words written out in 95_test_vectors.md (programs P1, P3, P6) decode to the requests they stand for. -/
def Obligations.SampleWordsDecode : Prop :=
  decode 644 0x10000000000000000000000000000000000000000000000000000000000000000000000000000000700000000000000000000000000000000000000000000000000000000000000000000000000000005
    = .ok (.sub ⟨5, 0, 0, 0, 0⟩ ⟨7, 0, 0, 0, 0⟩) ∧
  decode 644 0x2000000000000000000000000000000000000000000000000000000000000000000000000000000000000000000000000000000000000000000000000000000000000000000000000FFFFFFFFFFFFFFFE
    = .ok (.reduce ⟨0xFFFFFFFFFFFFFFFE, 0, 0, 0, 0⟩ ⟨0, 0, 0, 0, 0⟩) ∧
  decode 644 0x000000000000000320000000000000028000000000000001E0000000000000014000000000000000A00000000000000050000000000000004000000000000000300000000000000020000000000000001
    = .ok (.add ⟨1, 2, 3, 4, 5⟩ ⟨10, 20, 30, 40, 50⟩) ∧
  decode 644 0x30000000000000002000000000000000200000000000000020000000000000002000000000000000200000000000000010000000000000001000000000000000100000000000000010000000000000001
    = .ok (.mult ⟨1, 1, 1, 1, 1⟩ ⟨2, 2, 2, 2, 2⟩) ∧
  decode 644 0xC0000000000000000000000000000000000000000000000000000000000000000000000000000000100000000000000000000000000000000000000000000000000000000000000007FFFFFFFFFFFFFFF
    = .ok (.opC ⟨0x7FFFFFFFFFFFFFFF, 0, 0, 0, 0⟩ ⟨1, 0, 0, 0, 0⟩)

/-! ### What each request answers -/

/-- R82: ADD completes wherever Accept is enabled. C has the five lanes s64(a[i] + b[i]), ST is `{pv, 0}`, one entry is appended,
and nothing else changes. Under OOR_RESULT = Arbitrary this is the case of a met precondition; the other case is
FailedPreconditionDraws. -/
def Obligations.AddAnswersWrappedLaneSums : Prop :=
  ∀ (a b : FE) (s : State), s.acceptEnabled →
    (s.params.oorResult = .wrap ∨ ∀ i, inRange64 (limbValue a i + limbValue b i)) →
    ∃ (c : FE) (st : Status),
      (∀ i, limbValue c i = (limbValue a i + limbValue b i).bmod (2 ^ 64)) ∧
      illegalOp st = false ∧
      (preViol st = true ↔
        s.params.checkPrecond = true ∧ ¬ ∀ i, inRange64 (limbValue a i + limbValue b i)) ∧
      (encode (.add a b)).extractLsb' 640 4 = 0x0#4 ∧
      exec (.add a b) s = .next (s.afterAccept (.add a b) ⟨c, st⟩)

/-- R83: SUB, as AddAnswersWrappedLaneSums with the lanes s64(a[i] - b[i]). -/
def Obligations.SubAnswersWrappedLaneDifferences : Prop :=
  ∀ (a b : FE) (s : State), s.acceptEnabled →
    (s.params.oorResult = .wrap ∨ ∀ i, inRange64 (limbValue a i - limbValue b i)) →
    ∃ (c : FE) (st : Status),
      (∀ i, limbValue c i = (limbValue a i - limbValue b i).bmod (2 ^ 64)) ∧
      illegalOp st = false ∧
      (preViol st = true ↔
        s.params.checkPrecond = true ∧ ¬ ∀ i, inRange64 (limbValue a i - limbValue b i)) ∧
      (encode (.sub a b)).extractLsb' 640 4 = 0x1#4 ∧
      exec (.sub a b) s = .next (s.afterAccept (.sub a b) ⟨c, st⟩)

/-- R102: REDUCE completes wherever Accept is enabled. The working limbs t[1..4] are what the four carry steps pass on
(s64 of the exact sum), and C is what the last carry leaves after the fold by 19; `pv` tells whether an exact carry sum left
64 bits. B takes no part. -/
def Obligations.ReduceAnswersOneCarryPass : Prop :=
  ∀ (a b : FE) (s : State), s.acceptEnabled →
    let x := limbValue a
    let s1 := x 1 + x 0 / 2 ^ 51
    let t1 := s1.bmod (2 ^ 64)
    let s2 := x 2 + t1 / 2 ^ 51
    let t2 := s2.bmod (2 ^ 64)
    let s3 := x 3 + t2 / 2 ^ 51
    let t3 := s3.bmod (2 ^ 64)
    let s4 := x 4 + t3 / 2 ^ 51
    let t4 := s4.bmod (2 ^ 64)
    let pre := inRange64 s1 ∧ inRange64 s2 ∧ inRange64 s3 ∧ inRange64 s4
    (s.params.oorResult = .wrap ∨ pre) →
    ∃ (c : FE) (st : Status),
      limbValue c 0 = x 0 % 2 ^ 51 + 19 * (t4 / 2 ^ 51) ∧ limbValue c 1 = t1 % 2 ^ 51 ∧
      limbValue c 2 = t2 % 2 ^ 51 ∧ limbValue c 3 = t3 % 2 ^ 51 ∧ limbValue c 4 = t4 % 2 ^ 51 ∧
      illegalOp st = false ∧ (preViol st = true ↔ s.params.checkPrecond = true ∧ ¬ pre) ∧
      (encode (.reduce a b)).extractLsb' 640 4 = 0x2#4 ∧
      exec (.reduce a b) s = .next (s.afterAccept (.reduce a b) ⟨c, st⟩)

/-- R127: MULT completes wherever Accept is enabled. `r` are the nine convolution sums (R121), `f` the folded ones (R123), the `g`
and `k` the wide carry pass (R124), `n` the narrowed element (R125), and C two REDUCE passes over n (R126; the limbs of a REDUCE pass
are ReduceAnswersOneCarryPass). -/
def Obligations.MultAnswersFiveSteps : Prop :=
  ∀ (a b : FE) (s : State), s.acceptEnabled →
    let r : Nat → Int := fun k =>
      ∑ i : Fin 5, ∑ j : Fin 5, if i.val + j.val = k then limbValue a i * limbValue b j else 0
    let f : Nat → Int := fun k => if k < 4 then r k + 19 * r (k + 5) else r k
    let k0 := f 0 / 2 ^ 51
    let g1 := f 1 + k0
    let k1 := g1 / 2 ^ 51
    let g2 := f 2 + k1
    let k2 := g2 / 2 ^ 51
    let g3 := f 3 + k2
    let k3 := g3 / 2 ^ 51
    let g4 := f 4 + k3
    let k4 := g4 / 2 ^ 51
    (s.params.oorResult = .wrap ∨ multDuty a b) →
    ∃ (n : FE) (st : Status),
      limbValue n 0 = (f 0 - k0 * 2 ^ 51 + 19 * k4).bmod (2 ^ 64) ∧
      limbValue n 1 = (g1 - k1 * 2 ^ 51).bmod (2 ^ 64) ∧ limbValue n 2 = (g2 - k2 * 2 ^ 51).bmod (2 ^ 64) ∧
      limbValue n 3 = (g3 - k3 * 2 ^ 51).bmod (2 ^ 64) ∧ limbValue n 4 = (g4 - k4 * 2 ^ 51).bmod (2 ^ 64) ∧
      illegalOp st = false ∧ (preViol st = true ↔ s.params.checkPrecond = true ∧ ¬ multDuty a b) ∧
      (encode (.mult a b)).extractLsb' 640 4 = 0x3#4 ∧
      exec (.mult a b) s = .next (s.afterAccept (.mult a b) ⟨reduceDatapath (reduceDatapath n), st⟩)

/-- R64, R151: a request with a reserved code is accepted like any other and answered with C = (0,0,0,0,0) and ST = 0b01, whatever its
operands and whatever the parameters; it has no other effect. Named for each of the twelve codes. -/
def Obligations.ReservedCodesAnswerIllegalOp : Prop :=
  ∀ (a b : FE) (s : State), s.acceptEnabled →
    ∀ i ∈ [Instr.op4 a b, .op5 a b, .op6 a b, .op7 a b, .op8 a b, .op9 a b, .opA a b, .opB a b, .opC a b, .opD a b,
        .opE a b, .opF a b],
      exec i s = .next (s.afterAccept i ⟨⟨0, 0, 0, 0, 0⟩, 0b01#2⟩)

/-- R154 with OOR_RESULT = Arbitrary: an operation whose precondition fails completes too. Its C is draw number `draws`, whose
value nothing fixes, ST is the ST of OOR_RESULT = Wrap, and the draw is used up. That the draws are numbered by a counter is the model's
choice (log entry 5). -/
def Obligations.FailedPreconditionDraws : Prop :=
  ∀ (i : Instr) (s : State), s.acceptEnabled → ¬ reservedCode i → s.params.oorResult = .arbitrary → preOk i = false →
    exec i s =
      .next { s.afterAccept i ⟨FE.ofBus (Config.freeElement s.draws), statusBits s.params.checkPrecond false⟩ with
        draws := s.draws + 1 }

/-- R65: wherever Accept is enabled, every request is answered with a response that F gives for it. One entry is appended, and only
Q, the host's record and the count of draws change. The count of draws is the model's own (log entry 5). -/
def Obligations.EveryRequestAnswersF : Prop :=
  ∀ (i : Instr) (s : State), s.acceptEnabled →
    ∃ (r : Response) (n : Nat), Admits s.params i r ∧ exec i s = .next { s.afterAccept i r with draws := s.draws + n }

/-- R66: the B limbs of a REDUCE request and both operands of a reserved request take no part in C or ST. Where R154 leaves C of a
REDUCE free, two such requests need not agree in it (R50), and nothing is said of C then. -/
def Obligations.UnreadOperandsTakeNoPart : Prop :=
  ∀ s : State, s.acceptEnabled →
    (∀ a b b' : FE, ∃ (r r' : Response) (n : Nat),
      exec (.reduce a b) s = .next { s.afterAccept (.reduce a b) r with draws := s.draws + n } ∧
      exec (.reduce a b') s = .next { s.afterAccept (.reduce a b') r' with draws := s.draws + n } ∧
      r.st = r'.st ∧ (s.params.oorResult = .wrap ∨ reducePreOk a = true → r = r')) ∧
    (∀ (op : BitVec 4) (a b a' b' : FE), 4 ≤ op.toNat → ∃ r,
      exec (Instr.ofOp op a b) s = .next (s.afterAccept (Instr.ofOp op a b) r) ∧
      exec (Instr.ofOp op a' b') s = .next (s.afterAccept (Instr.ofOp op a' b') r))

/-- R20: a response depends only on the request and the parameters, not on any earlier request: two states that share nothing but
their parameters answer the same request with the same ST, and with the same C unless R154 leaves C free. -/
def Obligations.ResponseDependsOnRequestOnly : Prop :=
  ∀ (i : Instr) (s t : State), s.acceptEnabled → t.acceptEnabled → s.params = t.params →
    ∃ (r r' : Response) (n : Nat),
      exec i s = .next { s.afterAccept i r with draws := s.draws + n } ∧
      exec i t = .next { t.afterAccept i r' with draws := t.draws + n } ∧
      r.st = r'.st ∧ (s.params.oorResult = .wrap ∨ preOk i = true → r = r' ∧ n = 0)

/-- R153: a request reports at most one status bit; ILLEGAL_OP is decided first; with CHECK_PRECOND = 0 PRE_VIOL is 0 (R25, R152). -/
def Obligations.AtMostOneStatusBit : Prop :=
  ∀ (i : Instr) (s t : State), exec i s = .next t →
    ∃ r, t.q = s.q ++ [⟨r, false⟩] ∧
      ¬ (illegalOp r.st = true ∧ preViol r.st = true) ∧ r.st ≠ 0b11#2 ∧
      (illegalOp r.st = true ↔ reservedCode i) ∧ (reservedCode i → preViol r.st = false) ∧
      (¬ reservedCode i → (preViol r.st = true ↔ s.params.checkPrecond = true ∧ preOk i = false))

/-! ### The channels and the steps -/

/-- A step whose next move accepts a request runs the instruction the request decodes to, on a channel that is then free; a request
placed by `withFetchWord` is what the next step decodes and runs (log entry 3). -/
def Obligations.StepRunsDecodedRequest : Prop :=
  (∀ (s : State) (r : Request) (ms : List Move), s.moves = .accept r :: ms → (s.waiting = none ∨ s.waiting = some r) →
    step s = exec r.decode { s with waiting := none, moves := ms }) ∧
  (∀ (s : State) (nbits w : Nat) (i : Instr), decodeTableWord nbits w = some i →
    step (s.withFetchWord nbits w) = exec i { s with waiting := none })

/-- R41: outside reset, a rising edge accepts the offered request exactly when `req_valid` = 1, the block drives `req_ready` to 1 and Q
is not full; an offer that is not accepted waits, and it leaves Q to the take. -/
def Obligations.EdgeAcceptsWhenReadyAndValid : Prop :=
  ∀ (s : State) (e : Edge) (ms : List Move), s.moves = .edge e :: ms → s.running → e.rst = false →
    (e.rspReady = false ∨ s.rspValid = false) → (s.waiting = none ∨ s.waiting = e.offer) →
    (e.reqValid = true → e.willing = true → s.q.length < s.params.depth →
      step s = exec e.req.decode { s with waiting := none, moves := ms } ∧
      ∃ t r, step s = .next t ∧ t.q = s.q ++ [⟨r, false⟩]) ∧
    (e.reqValid = false ∨ e.willing = false ∨ s.params.depth ≤ s.q.length →
      step s = .next { s with waiting := e.offer, moves := ms })

/-- R41, R44, R183: a request is accepted exactly where Accept is enabled; elsewhere it has no meaning. That such an
acceptance is refused, and under these names, is the model's choice (log entries 7 and 11). -/
def Obligations.AcceptanceEnabledExactly : Prop :=
  ∀ (i : Instr) (s : State),
    (s.acceptEnabled → ∃ t, exec i s = .next t) ∧
    (s.sawReset = false → exec i s = .refused .beforeFirstReset) ∧
    (s.sawReset = true → s.rst = true → exec i s = .refused .resetAsserted) ∧
    (s.running → s.params.depth ≤ s.q.length → exec i s = .refused .queueFull)

/-- R44 Finish: the oldest entry with done = false gets done = true, and nothing else changes. -/
def Obligations.FinishMarksOldestUnfinished : Prop :=
  ∀ (s : State) (ms : List Move) (xs ys : List Entry) (r : Response), s.moves = .finish :: ms → s.running →
    s.q = xs ++ ⟨r, false⟩ :: ys → (∀ x ∈ xs, x.done = true) →
    step s = .next { s with q := xs ++ ⟨r, true⟩ :: ys, moves := ms }

/-- R44 Take: the host observes the response of the oldest entry, which is done, and the entry leaves Q; nothing else changes. -/
def Obligations.TakeObservesOldestResponse : Prop :=
  ∀ (s : State) (ms : List Move) (r : Response) (es : List Entry), s.moves = .take :: ms → s.running →
    s.q = ⟨r, true⟩ :: es →
    s.rspPort = some r ∧ step s = .next { s with q := es, taken := s.taken ++ [r], moves := ms }

/-- R44: a step that is not enabled has no meaning; the model refuses it: Finish with nothing unfinished or during reset, Take with
no finished oldest entry or during reset, Release outside reset. The names of the refusals are the model's (log entry 11). -/
def Obligations.DisabledStepsAreRefused : Prop :=
  ∀ (s : State) (ms : List Move), s.sawReset = true →
    (s.moves = .finish :: ms → s.rst = true → step s = .refused .resetAsserted) ∧
    (s.moves = .finish :: ms → s.rst = false → (∀ e ∈ s.q, e.done = true) → step s = .refused .nothingToFinish) ∧
    (s.moves = .take :: ms → s.rst = true → step s = .refused .resetAsserted) ∧
    (s.moves = .take :: ms → s.rst = false → s.rspPort = none → step s = .refused .noResponse) ∧
    (s.moves = .release :: ms → s.rst = false → step s = .refused .notInReset)

/-- R44 Reset and Release: Reset is enabled in every state, empties Q and asserts `rst`; Release lowers it and changes nothing else.
Parameters are unchanged (R31). -/
def Obligations.ResetAnyTimeThenRelease : Prop :=
  ∀ (s : State) (ms : List Move),
    (s.moves = .reset :: ms →
      step s = .next { s with q := [], rst := true, sawReset := true, accepted := [], taken := [], moves := ms }) ∧
    (s.moves = .release :: ms → s.sawReset = true → s.rst = true → step s = .next { s with rst := false, moves := ms })

/-- R180: on every rising edge where `rst` = 1, Q becomes empty, nothing is accepted or taken, and in the cycle that follows
`req_ready` = 0 and `rsp_valid` = 0, so that at the next edge nothing is accepted or taken either. That the offer stays binding through reset
and that the next edge is Release are the model's readings (log entries 8 and 10). -/
def Obligations.ResetEdgeEmptiesQueue : Prop :=
  ∀ (s : State) (e : Edge) (ms : List Move), s.moves = .edge e :: ms → e.rst = true →
    (s.waiting = none ∨ s.waiting = e.offer) →
    ∃ t, step s = .next t ∧
      t = { s with q := [], rst := true, sawReset := true, accepted := [], taken := [], waiting := e.offer, moves := ms } ∧
      (∀ w, t.reqReady w = false) ∧ t.rspValid = false ∧ t.rspPort = none ∧
      ∀ e' : Edge, e'.rst = false → (t.waiting = none ∨ t.waiting = e'.offer) →
        edgeMove e' t = .next { t with rst := false, waiting := e'.offer }

/-- R45: an acceptance and a take on the same rising edge both apply; when Q holds DEPTH entries before the edge, the request is not
accepted even if a response is taken on the same edge, and it waits. An edge at which no request is accepted for another reason takes
too. -/
def Obligations.EdgeTakesAndAcceptsTogether : Prop :=
  ∀ (s : State) (e : Edge) (ms : List Move) (r : Response) (es : List Entry),
    s.moves = .edge e :: ms → s.running → e.rst = false → e.rspReady = true →
    (s.waiting = none ∨ s.waiting = e.offer) → s.q = ⟨r, true⟩ :: es →
    (e.reqValid = true → e.willing = true → s.q.length < s.params.depth →
      ∃ (c : Response) (n : Nat), Admits s.params e.req.decode c ∧
        step s = .next { s with
          q := es ++ [⟨c, false⟩], taken := s.taken ++ [r], accepted := s.accepted ++ [e.req.decode],
          draws := s.draws + n, waiting := none, moves := ms }) ∧
    (e.reqValid = false ∨ e.willing = false ∨ s.params.depth ≤ s.q.length →
      step s = .next { s with q := es, taken := s.taken ++ [r], waiting := e.offer, moves := ms })

/-- R42: `rsp_valid` = 1 exactly when Q is not empty and its oldest entry is done; the port then carries that entry's (C, ST); and once it
does, it stays so through every step until that response is taken, which removes the oldest entry, or reset is asserted. -/
def Obligations.WaitingResponseIsHeld : Prop :=
  (∀ s : State, s.rspValid = true ↔ ∃ e es, s.q = e :: es ∧ e.done = true) ∧
  (∀ (s : State) (e : Entry) (es : List Entry), s.sawReset = true → s.q = e :: es → e.done = true → s.rspPort = some e.resp) ∧
  (∀ (s t : State) (r : Response), s.rspPort = some r → step s = .next t →
    t.rspPort = some r ∨
    (t.taken = s.taken ++ [r] ∧ s.q.tail <+: t.q ∧
      ∃ ms, s.moves = .take :: ms ∨ ∃ e, s.moves = .edge e :: ms ∧ e.rst = false ∧ e.rspReady = true) ∨
    (t.rst = true ∧ t.q = [] ∧ ∃ ms, s.moves = .reset :: ms ∨ ∃ e, s.moves = .edge e :: ms ∧ e.rst = true))

/-- R185: a host that changes or withdraws a request that waits to be accepted is given no meaning: the model refuses it. Where the
waiting offer is held, and that it binds in every state, is log entry 8. -/
def Obligations.ChangedRequestIsRefused : Prop :=
  ∀ (s : State) (r : Request) (ms : List Move), s.waiting = some r →
    (∀ e : Edge, s.moves = .edge e :: ms → (e.reqValid = false ∨ e.req ≠ r) → step s = .refused .requestChanged) ∧
    (∀ r' : Request, s.moves = .accept r' :: ms → r' ≠ r → step s = .refused .requestChanged)

/-- R183: until the first reset edge none of the outputs has a value, and no request is accepted: a step either leaves everything but the
agenda as it was, or is the reset. The sentence of R183 is the part about the outputs; that no step but the reset changes anything else
rests on the model's readings: Accept, Take, Finish and Release are refused (log entry 7), and so is a handshake at an edge (log entry
22). -/
def Obligations.NothingRunsBeforeFirstReset : Prop :=
  ∀ s t : State, s.sawReset = false →
    s.rspPort = none ∧ s.rspValidPort = none ∧ (∀ w, s.reqReadyPort w = none) ∧
    (step s = .next t →
      t = { s with moves := s.moves.tail } ∨ (t.sawReset = true ∧ t.rst = true ∧ t.q = [] ∧ t.accepted = [] ∧ t.taken = []))

/-- R32: while `rsp_valid` = 0 the payload ports have no value. -/
def Obligations.NoPayloadWhileNotValid : Prop :=
  ∀ s : State, s.rspValid = false → s.rspPort = none

/-- Every rising edge is a short sequence of the untimed steps of R44: Reset, Release, a take or none followed by an acceptance or
none. The host's waiting offer (R185) is not part of the block and is left out of the comparison. The first edge after reset is Release
by log entry 10. -/
def Obligations.EveryEdgeIsUntimedSteps : Prop :=
  ∀ (e : Edge) (s t : State), edgeMove e s = .next t →
    ∃ ms ∈ [[], [Move.reset], [.release], [.take], [.accept e.req], [.take, .accept e.req]],
      runMoves ms s.clearWaiting = .next t.clearWaiting

/-- Every untimed step of the host and the environment (R44) is what one rising edge does, whether or not a request waits: a waiting
request is offered at that edge, as R185 asks. -/
def Obligations.EveryUntimedStepIsAnEdge : Prop :=
  ∀ (m : Move) (s t : State), m ≠ .finish → (∀ e, m ≠ .edge e) → runMove m s = .next t →
    ∃ e : Edge, edgeMove e s = .next t

/-! ### Invariants and whole-machine rules -/

/-- Every step keeps the invariant: DEPTH is at least 1 (R7), Q is bounded by DEPTH (R28), Q is empty while reset is asserted (R31),
entries are finished oldest first (R44), the n-th response is a response of the n-th request since reset (R51, R65), and nothing happened
before the first reset (R183). -/
def Obligations.StepKeepsInvariant : Prop :=
  ∀ s t : State, s.Inv → step s = .next t → t.Inv

/-- The invariant holds right after reset and at power-on. That Q is empty at power-on is the model's choice (log entry 7, DESIGN
CHOICE: R183 gives the state no value there). -/
def Obligations.ResetMeetsInvariant : Prop := State.reset.Inv ∧ State.powerOn.Inv

/-- R51, over one step from a state with the invariant: unless the step resets the block (which starts both counts afresh), the
responses taken and the requests accepted since reset only grow, by at most one each; a response that is taken is one that F gives for the
request with the same number; and no request is answered twice or lost. The records are the model's own (log entry 9). -/
def Obligations.ResponsesReturnInRequestOrder : Prop :=
  ∀ s t : State, s.Inv → step s = .next t →
    (t.rst = true ∧ t.q = [] ∧ t.taken = [] ∧ t.accepted = []) ∨
    ∃ (rs : List Response) (is : List Instr),
      t.taken = s.taken ++ rs ∧ rs.length ≤ 1 ∧ t.accepted = s.accepted ++ is ∧ is.length ≤ 1 ∧
      (∀ r ∈ rs, s.rspPort = some r ∧ ∃ i, s.accepted[s.taken.length]? = some i ∧ Admits s.params i r) ∧
      t.accepted.length = t.taken.length + t.q.length

/-- R27: no request, no reset and no other step changes the build parameters. -/
def Obligations.NoStepChangesParameters : Prop :=
  ∀ s t : State, step s = .next t → t.params = s.params

/-- R is set only by Reset and cleared only by Release, as moves or as rising edges (R44, R180). -/
def Obligations.OnlyResetMovesChangeRst : Prop :=
  ∀ s t : State, step s = .next t → t.rst ≠ s.rst →
    ∃ ms, (t.rst = true ∧ (s.moves = .reset :: ms ∨ ∃ e, s.moves = .edge e :: ms ∧ e.rst = true)) ∨
      (t.rst = false ∧ (s.moves = .release :: ms ∨ ∃ e, s.moves = .edge e :: ms ∧ e.rst = false))

/-- R50: a response, once in Q, is never changed: over a step the responses taken and in flight either stay, or grow by one at the
end (an acceptance), or are all dropped (a reset, R181). -/
def Obligations.ResponsesNeverChange : Prop :=
  ∀ s t : State, step s = .next t →
    let rs (u : State) := u.taken ++ u.q.map Entry.resp
    (rs t = rs s ∧ t.accepted = s.accepted) ∨
    (∃ r i, rs t = rs s ++ [r] ∧ t.accepted = s.accepted ++ [i]) ∨
    (t.rst = true ∧ rs t = [] ∧ t.accepted = [])

/-- R31, R182: after reset Q is empty, `rsp_valid` = 0, `rst` has fallen, and the block can take a first request, which is the first of
R51's count. That `State.reset` is the state after `rst` has fallen is the model's reading (log entry 6). -/
def Obligations.ResetIsReadyForWork : Prop :=
  State.reset.q = [] ∧ State.reset.rspValid = false ∧ State.reset.rspPort = none ∧ State.reset.rst = false ∧
    State.reset.accepted = [] ∧ State.reset.taken = [] ∧ State.reset.acceptEnabled

/-- R56, first item, in bounded form: with no move on the agenda the block finishes its entries by itself, one a step. That the block
moves when the agenda is empty is the model's choice (log entry 4). -/
def Obligations.EmptyAgendaFinishesEveryEntry : Prop :=
  ∀ s : State, s.running → s.moves = [] →
    Host.Core.run Sys2Proof.core (unfinished s.q) s =
      .next { s with q := s.q.map (fun e => { e with done := true }) }

/-- R52 and R56. A host that takes as many responses as are in flight, each finished, has taken every one in order, and Q is then
empty. In an infinite run that meets the fairness assumptions on the block (`BlockLive`, R56's first and third item) and in which `rst` stays
0: if `rsp_ready` is 1 in infinitely many cycles, every response in flight is taken at some later position (R56's second item); and if Q
holds fewer than DEPTH entries at every cycle, a request that the host keeps offering is accepted. How R56 is put as a predicate over
infinite runs is log entry 18. -/
def Obligations.TakingEveryResponseDrainsQueue : Prop :=
  (∀ s : State, s.running → (∀ e ∈ s.q, e.done = true) → s.moves = List.replicate s.q.length .take →
    Host.Core.run Sys2Proof.core s.q.length s =
      .next { s with q := [], taken := s.taken ++ s.q.map Entry.resp, moves := [] }) ∧
  ∀ (σ : Nat → State) (μ : Nat → Move) (n0 : Nat), IsRun σ μ → BlockLive σ μ → RunningFrom n0 σ →
    (HostTakes μ → ∀ (n k : Nat) (r : Response), n0 ≤ n →
      ((σ n).taken ++ (σ n).q.map Entry.resp)[k]? = some r → ∃ m, n ≤ m ∧ (σ m).taken[k]? = some r) ∧
    (∀ r : Request, infinitelyOften (cycleAt μ fun _ => True) →
      (∀ n e, n0 ≤ n → μ n = .edge e → e.offer = some r ∧ (σ n).q.length < (σ n).params.depth) →
      ∃ n, n0 ≤ n ∧ (σ (n + 1)).accepted = (σ n).accepted ++ [r.decode])

/-! ### ADD and SUB -/

/-- R80, R85: inside the precondition the represented integers add and subtract exactly; limbs in [-2^62, 2^62 - 1] meet it. -/
def Obligations.AddSubExactInsidePrecondition : Prop :=
  ∀ a b : FE,
    (addPreOk a b = true → val (addDatapath a b) = val a + val b) ∧
    (subPreOk a b = true → val (subDatapath a b) = val a - val b) ∧
    (limbsIn (-2 ^ 62) (2 ^ 62 - 1) a → limbsIn (-2 ^ 62) (2 ^ 62 - 1) b → addPreOk a b = true ∧ subPreOk a b = true)

/-- R87: on normalised inputs every limb of the sum lies in [0, 2^52 - 2] and every limb of the difference in
[-(2^51 - 1), 2^51 - 1]; both meet the preconditions of REDUCE and of MULT. -/
def Obligations.NormalisedSumsFeedMult : Prop :=
  ∀ a b : FE, normalised a → normalised b →
    limbsIn 0 (2 ^ 52 - 2) (addDatapath a b) ∧ limbsIn (-(2 ^ 51 - 1)) (2 ^ 51 - 1) (subDatapath a b) ∧
    reducePreOk (addDatapath a b) = true ∧ reducePreOk (subDatapath a b) = true ∧
    multPreOk (addDatapath a b) (subDatapath a b) = true

/-- R81: lane i of ADD and of SUB reads a[i] and b[i] only. -/
def Obligations.LanesAreIndependent : Prop :=
  ∀ (a b a' b' : FE) (i : Fin 5), limb a i = limb a' i → limb b i = limb b' i →
    limb (addDatapath a b) i = limb (addDatapath a' b') i ∧ limb (subDatapath a b) i = limb (subDatapath a' b') i

/-! ### REDUCE -/

/-- R103: the carry of a limb lies in [-4096, 4095]; after `carry_step(i)` limb i is the floor modulus of what it was, in [0, 2^51), for
negative limbs too, and limbs other than i and i + 1 are unchanged. -/
def Obligations.CarryStepLeavesFloorModulus : Prop :=
  ∀ (t : FE) (i : Fin 4),
    -4096 ≤ limbValue t i.castSucc / 2 ^ 51 ∧ limbValue t i.castSucc / 2 ^ 51 ≤ 4095 ∧
    limbValue (carryStep i t) i.castSucc = limbValue t i.castSucc % 2 ^ 51 ∧
    limbValue (carryStep i t) i.succ = (limbValue t i.succ + limbValue t i.castSucc / 2 ^ 51).bmod (2 ^ 64) ∧
    ∀ j, j ≠ i.castSucc → j ≠ i.succ → limb (carryStep i t) j = limb t j

/-- R100: REDUCE's precondition is that no exact addition of a carry step, on the limbs as they stand when that step runs, leaves 64
bits; limbs 1 to 4 in [-2^63 + 4096, 2^63 - 4096] meet it, whatever limb 0 is. -/
def Obligations.ReducePreconditionIsCarrySums : Prop :=
  ∀ a : FE,
    let t1 := carryStep 0 a
    let t2 := carryStep 1 t1
    let t3 := carryStep 2 t2
    (reducePreOk a = true ↔
      inRange64 (limbValue a 1 + limbValue a 0 / 2 ^ 51) ∧ inRange64 (limbValue t1 2 + limbValue t1 1 / 2 ^ 51) ∧
      inRange64 (limbValue t2 3 + limbValue t2 2 / 2 ^ 51) ∧ inRange64 (limbValue t3 4 + limbValue t3 3 / 2 ^ 51)) ∧
    ((∀ i : Fin 4, -2 ^ 63 + 4096 ≤ limbValue a i.succ ∧ limbValue a i.succ ≤ 2 ^ 63 - 4096) → reducePreOk a = true)

/-- R104: output ranges of one pass, for every 64-bit input. -/
def Obligations.ReduceOutputRanges : Prop :=
  ∀ a : FE,
    limbNormalised (reduceDatapath a).l1 ∧ limbNormalised (reduceDatapath a).l2 ∧
    limbNormalised (reduceDatapath a).l3 ∧ limbNormalised (reduceDatapath a).l4 ∧
    -77824 ≤ (reduceDatapath a).l0.value ∧ (reduceDatapath a).l0.value ≤ 2251799813763052 ∧
    (0 ≤ (rippled a).l4.value → 0 ≤ (reduceDatapath a).l0.value)

/-- R106: a normalised element is a fixed point of REDUCE and meets its precondition. -/
def Obligations.NormalisedIsReduceFixedPoint : Prop :=
  ∀ a : FE, normalised a → reduceDatapath a = a ∧ reducePreOk a = true

/-- R107, R188: two passes normalise every 64-bit input, and the second pass is always inside its precondition. -/
def Obligations.TwoReducePassesNormalise : Prop :=
  ∀ a : FE, normalised (reduceDatapath (reduceDatapath a)) ∧ reducePreOk (reduceDatapath a) = true

/-- R108: inside the precondition one pass changes the represented integer by -c4·p, so the field value is unchanged. -/
def Obligations.ReducePreservesFieldValue : Prop :=
  ∀ a : FE, reducePreOk a = true →
    val (reduceDatapath a) = val a - carryOf (rippled a).l4 * (2 ^ 255 - 19) ∧ sameFieldValue (reduceDatapath a) a

/-! ### MULT -/

/-- R121, R129: the nine coefficients are the convolution sums, and they represent the exact product of the represented
integers. -/
def Obligations.ConvolutionIsExactProduct : Prop :=
  ∀ a b : FE,
    let r := convolution a b
    let sum : Nat → Int := fun k =>
      ∑ i : Fin 5, ∑ j : Fin 5, if i.val + j.val = k then limbValue a i * limbValue b j else 0
    (r.r0 = sum 0 ∧ r.r1 = sum 1 ∧ r.r2 = sum 2 ∧ r.r3 = sum 3 ∧ r.r4 = sum 4 ∧ r.r5 = sum 5 ∧ r.r6 = sum 6 ∧
      r.r7 = sum 7 ∧ r.r8 = sum 8) ∧
    r.r0 + r.r1 * 2 ^ 51 + r.r2 * 2 ^ 102 + r.r3 * 2 ^ 153 + r.r4 * 2 ^ 204 +
      (r.r5 + r.r6 * 2 ^ 51 + r.r7 * 2 ^ 102 + r.r8 * 2 ^ 153) * 2 ^ 255 = val a * val b

/-- R122, R128: for every pair of 64-bit operands every intermediate value of steps 1 to 3 has magnitude below 2^133, and inside the
precondition below 2^111: the products and every partial sum of them in any order, the nine coefficients of step 1, the terms and sums
of the fold, and of the wide carry pass the carries, the shifted carries, the sums r[i+1] + carry, the fold term and the results. -/
def Obligations.WideValuesFitAccumulator : Prop :=
  ∀ a b : FE,
    let r := convolution a b
    let f := foldHigh r
    let g := wideCarryPass f
    let k0 := f.r0 / 2 ^ 51
    let k1 := (f.r1 + k0) / 2 ^ 51
    let k2 := (f.r2 + k1) / 2 ^ 51
    let k3 := (f.r3 + k2) / 2 ^ 51
    let k4 := (f.r4 + k3) / 2 ^ 51
    let step1 := [r.r0, r.r1, r.r2, r.r3, r.r4, r.r5, r.r6, r.r7, r.r8]
    let step2 := [19 * r.r5, 19 * r.r6, 19 * r.r7, 19 * r.r8, f.r0, f.r1, f.r2, f.r3, f.r4]
    let step3 := [k0, k1, k2, k3, k4, k0 * 2 ^ 51, k1 * 2 ^ 51, k2 * 2 ^ 51, k3 * 2 ^ 51, k4 * 2 ^ 51,
      f.r1 + k0, f.r2 + k1, f.r3 + k2, f.r4 + k3, f.r0 - k0 * 2 ^ 51, 19 * k4, g.r0, g.r1, g.r2, g.r3, g.r4]
    let partialSum : Finset (Fin 5 × Fin 5) → Int := fun S => ∑ p ∈ S, limbValue a p.1 * limbValue b p.2
    g = ⟨f.r0 - k0 * 2 ^ 51 + 19 * k4, f.r1 + k0 - k1 * 2 ^ 51, f.r2 + k1 - k2 * 2 ^ 51, f.r3 + k2 - k3 * 2 ^ 51,
      f.r4 + k3 - k4 * 2 ^ 51⟩ ∧
    (∀ S, -2 ^ 133 < partialSum S ∧ partialSum S < 2 ^ 133) ∧
    (∀ v ∈ step1 ++ step2 ++ step3, -2 ^ 133 < v ∧ v < 2 ^ 133) ∧
    (multDuty a b → (∀ S, -2 ^ 111 < partialSum S ∧ partialSum S < 2 ^ 111) ∧
      ∀ v ∈ step1 ++ step2 ++ step3, -2 ^ 111 < v ∧ v < 2 ^ 111)

/-- R122: the 136-bit accumulators compute the same narrowed element as exact integers, on every pair of operands. -/
def Obligations.AccumulatorMatchesExactIntegers : Prop :=
  ∀ a b : FE, accMultNarrowed a b = multNarrowed a b

/-- R125: step 4 is s64 of each coefficient; inside MULT's precondition it loses nothing, with n[1..4] in [0, 2^51) and n[0] in
[-855683929200395627, 857935729014080855]; outside it r[0] can exceed 64 bits. -/
def Obligations.NarrowingIsLosslessInPrecondition : Prop :=
  (∀ a b : FE,
    let r := wideCarryPass (foldHigh (convolution a b))
    let n := multNarrowed a b
    n.l0.value = r.r0.bmod (2 ^ 64) ∧ n.l1.value = r.r1.bmod (2 ^ 64) ∧ n.l2.value = r.r2.bmod (2 ^ 64) ∧
    n.l3.value = r.r3.bmod (2 ^ 64) ∧ n.l4.value = r.r4.bmod (2 ^ 64) ∧
    (multDuty a b →
      n.l0.value = r.r0 ∧ n.l1.value = r.r1 ∧ n.l2.value = r.r2 ∧ n.l3.value = r.r3 ∧ n.l4.value = r.r4 ∧
      limbNormalised n.l1 ∧ limbNormalised n.l2 ∧ limbNormalised n.l3 ∧ limbNormalised n.l4 ∧
      -855683929200395627 ≤ n.l0.value ∧ n.l0.value ≤ 857935729014080855)) ∧
  ∃ a b : FE, ¬ inRange64 (wideCarryPass (foldHigh (convolution a b))).r0

/-- R130: every limb of a MULT result lies in [0, 2^51), for every pair of operands. -/
def Obligations.MultResultIsNormalised : Prop :=
  ∀ a b : FE, normalised (multDatapath a b)

/-- R129: inside the precondition MULT computes the field product. -/
def Obligations.MultComputesFieldProduct : Prop :=
  ∀ a b : FE, multDuty a b → congrP (val (multDatapath a b)) (val a * val b)

/-- R131: MULT(A, B) and MULT(B, A) have identical limbs and the same precondition. -/
def Obligations.MultCommutes : Prop :=
  ∀ a b : FE, multDatapath a b = multDatapath b a ∧ multPreOk a b = multPreOk b a

/-- R134: distributivity at value level. -/
def Obligations.MultDistributesOverAdd : Prop :=
  ∀ a b e : FE, multDuty a b → multDuty a e → addPreOk b e = true → multDuty a (addDatapath b e) →
    sameFieldValue (multDatapath a (addDatapath b e)) (addDatapath (multDatapath a b) (multDatapath a e))

/-- R132, R109: one final REDUCE pass does not always suffice, with the operands R132 names; and REDUCE never fully reduces: a
normalised element whose represented integer is at least p is returned as it is, so the result is not canonical, with the element that
represents p itself as the instance R109 names. -/
def Obligations.OnePassMayNotNormalise : Prop :=
  let a : FE := ofInts (2 ^ 48) 0 0 0 0
  let b : FE := ofInts 2251799813685240 2251799813685247 2251799813685247 2251799813685247 1896252474682319
  let p : FE := ofInts (2 ^ 51 - 19) (2 ^ 51 - 1) (2 ^ 51 - 1) (2 ^ 51 - 1) (2 ^ 51 - 1)
  multDuty a b ∧ ¬ normalised (reduceDatapath (multNarrowed a b)) ∧ multDatapath a b = ofInts 14 1 0 0 0 ∧
  normalised p ∧ val p = Config.modulus ∧ ¬ canonical p ∧ reduceDatapath p = p ∧
  ∀ e : FE, normalised e → Config.modulus ≤ val e →
    reduceDatapath e = e ∧ Config.modulus ≤ val (reduceDatapath e) ∧ ¬ canonical (reduceDatapath e)

/-! ### The text syntax -/

/-- R69: `name = REDUCE2 x` expands to two REDUCE requests, the second on the result of the first, under a name not in use; NEW binds
its limbs and issues nothing. -/
def Obligations.Reduce2ExpandsToTwoRequests : Prop :=
  ∀ (env : Env) (used : List Ident) (r : Ident) (x : Operand) (a c : FE) (l : Literal) (s : State),
    Operand.eval env x = some a →
    let t := freshIdent used
    t ∉ used ∧
    Line.expand t (.reduce2 r x) = [.request (some t) .reduce [x], .request (some r) .reduce [.name t]] ∧
    Line.instr env (.request (some t) .reduce [x]) = some (.reduce a FE.zero) ∧
    Line.instr ((t, c) :: env) (.request (some r) .reduce [.name t]) = some (.reduce c FE.zero) ∧
    Line.instr env (.new r l) = none ∧ Line.bind env s (.new r l) = (r, Literal.toFE l) :: env
end

