-- ==== Sys2Proof/Laws/Operands.lean ====
section
/-! SUPPORT. The small lemmas of limbs, `s64` and the shift by 51. -/

namespace Sys2Proof.Machine

theorem FE.ext_limbs {a b : FE} (h : ∀ i : Fin 5, limb a i = limb b i) : a = b := by
  have h0 := h 0
  have h1 := h 1
  have h2 := h 2
  have h3 := h 3
  have h4 := h 4
  cases a
  cases b
  simp only [limb] at h0 h1 h2 h3 h4
  simp [h0, h1, h2, h3, h4]

/-- Two elements with the same limb integers are equal (R10). -/
theorem FE.ext_values {a b : FE} (h : ∀ i : Fin 5, limbValue a i = limbValue b i) : a = b :=
  FE.ext_limbs fun i => BitVec.eq_of_toInt_eq (h i)

theorem value_range (x : Limb) : -2 ^ 63 ≤ x.value ∧ x.value ≤ 2 ^ 63 - 1 := by
  have h1 := BitVec.le_toInt x
  have h2 := BitVec.toInt_lt (x := x)
  norm_num at h1 h2
  unfold Limb.value
  constructor <;> norm_num <;> omega

/-- `s64` is the balanced residue modulo 2^64 (R8). -/
theorem value_s64 (v : Int) : (s64 v).value = v.bmod (2 ^ 64) := BitVec.toInt_ofInt v

/-- `s64` loses nothing in the 64-bit range. -/
theorem value_s64_of_range {v : Int} (h1 : -2 ^ 63 ≤ v) (h2 : v ≤ 2 ^ 63 - 1) : (s64 v).value = v := by
  rw [value_s64]
  norm_num at h1 h2 ⊢
  rw [Int.bmod_def]
  split <;> omega

@[simp] theorem s64_value (x : Limb) : s64 x.value = x := by
  simp [s64, Limb.value]

theorem fits64_iff (v : Int) : fits64 v = true ↔ -2 ^ 63 ≤ v ∧ v ≤ 2 ^ 63 - 1 := by
  simp only [fits64, Bool.and_eq_true, decide_eq_true_eq]
  unfold Config.limbMin Config.limbMax
  norm_num

@[simp] theorem limb_zero (a : FE) : limb a 0 = a.l0 := rfl
@[simp] theorem limb_one (a : FE) : limb a 1 = a.l1 := rfl
@[simp] theorem limb_two (a : FE) : limb a 2 = a.l2 := rfl
@[simp] theorem limb_three (a : FE) : limb a 3 = a.l3 := rfl
@[simp] theorem limb_four (a : FE) : limb a 4 = a.l4 := rfl

theorem forall_limb {P : Fin 5 → Prop} : (∀ i, P i) ↔ P 0 ∧ P 1 ∧ P 2 ∧ P 3 ∧ P 4 := by
  constructor
  · intro h
    exact ⟨h 0, h 1, h 2, h 3, h 4⟩
  · rintro ⟨h0, h1, h2, h3, h4⟩ i
    fin_cases i <;> assumption

theorem radix_eq : Config.radix = 2 ^ 51 := by norm_num [Config.radix]

/-- `>> 51` is floor division and what it leaves is the floor modulus, in [0, 2^51) (R8). -/
theorem shr51_spec (x : Int) : 0 ≤ x - shl51 (shr51 x) ∧ x - shl51 (shr51 x) < 2251799813685248 := by
  unfold shl51 shr51 Config.radix
  omega

theorem sub_shl51_shr51 (x : Int) : x - shl51 (shr51 x) = x % 2251799813685248 := by
  unfold shl51 shr51 Config.radix
  omega

/-- The carry out of a 64-bit limb lies in [-4096, 4095] (R103). -/
theorem shr51_range {x : Int} (h1 : -2 ^ 63 ≤ x) (h2 : x ≤ 2 ^ 63 - 1) : -4096 ≤ shr51 x ∧ shr51 x ≤ 4095 := by
  unfold shr51 Config.radix
  norm_num at h1 h2
  omega

theorem normalised_iff (a : FE) :
    normalised a ↔ limbNormalised a.l0 ∧ limbNormalised a.l1 ∧ limbNormalised a.l2 ∧ limbNormalised a.l3 ∧
      limbNormalised a.l4 := by
  simp [normalised, forall_limb]

end Sys2Proof.Machine
end

