-- ==== Sys2Proof/Laws/Accumulator.lean ====
section
/-! SUPPORT. What each operation on a 136-bit accumulator computes, in integers (42_mult.md R122, R124, R125). -/

namespace Sys2Proof.Machine

theorem accFold_eq : accFold = BitVec.ofInt 136 19 := by decide +kernel

/-- A sign-extended limb holds the limb's integer. -/
theorem accOf_eq (x : Limb) : accOf x = BitVec.ofInt 136 x.value := by
  apply BitVec.eq_of_toInt_eq
  have h := value_range x
  rw [accOf, BitVec.toInt_signExtend_of_le (by norm_num), BitVec.toInt_ofInt, Int.bmod_eq_of_le] <;>
  · unfold Limb.value at *
    norm_num at h ⊢
    omega

theorem acc_sub (x y : Int) : BitVec.ofInt 136 (x - y) = BitVec.ofInt 136 x - BitVec.ofInt 136 y := by
  rw [sub_eq_add_neg x, BitVec.ofInt_add, BitVec.ofInt_neg, BitVec.sub_eq_add_neg]

/-- The arithmetic shift of an accumulator is `>> 51`, as long as the integer fits it. -/
theorem acc_shiftRight {v : Int} (h1 : -2 ^ 133 < v) (h2 : v < 2 ^ 133) :
    (BitVec.ofInt 136 v).sshiftRight 51 = BitVec.ofInt 136 (shr51 v) := by
  apply BitVec.eq_of_toInt_eq
  norm_num at h1 h2
  rw [BitVec.toInt_sshiftRight, BitVec.toInt_ofInt, BitVec.toInt_ofInt, Int.bmod_eq_of_le, Int.bmod_eq_of_le,
    Int.shiftRight_eq_div_pow]
  · unfold shr51 Config.radix
    norm_num
  all_goals try unfold shr51 Config.radix
  all_goals norm_num
  all_goals omega

theorem acc_shiftLeft (v : Int) : (BitVec.ofInt 136 v) <<< 51 = BitVec.ofInt 136 (shl51 v) := by
  rw [BitVec.shiftLeft_eq_mul_twoPow, show BitVec.twoPow 136 51 = BitVec.ofInt 136 Config.radix by decide +kernel,
    ← BitVec.ofInt_mul]
  rfl

/-- The low 64 bits of an accumulator are `s64` of its integer. -/
theorem acc_low (v : Int) : (BitVec.ofInt 136 v).setWidth 64 = s64 v := by
  apply BitVec.eq_of_toNat_eq
  simp only [s64, BitVec.toNat_setWidth, BitVec.toNat_ofInt]
  norm_num
  omega

end Sys2Proof.Machine
end

