-- ==== Sys2Proof/Laws/Encoding.lean ====
section
/-! SUPPORT. The bits of the formats: what each field of a bus or word holds. -/

namespace Sys2Proof

/-- Limb i of the bus of an element is the element's limb i (R46). -/
theorem busLimb_toBus (a : FE) :
    busLimb a.toBus 0 = a.l0 ∧ busLimb a.toBus 1 = a.l1 ∧ busLimb a.toBus 2 = a.l2 ∧ busLimb a.toBus 3 = a.l3 ∧
      busLimb a.toBus 4 = a.l4 := by
  refine ⟨?_, ?_, ?_, ?_, ?_⟩ <;>
  · apply BitVec.eq_of_getLsbD_eq
    intro i hi
    simp only [busLimb, FE.toBus, BitVec.getLsbD_extractLsb', BitVec.getLsbD_append, hi, decide_true, Bool.true_and]
    repeat' split
    all_goals first | omega | exact congrArg (BitVec.getLsbD _) (by omega)

theorem FE.ofBus_toBus (a : FE) : FE.ofBus a.toBus = a := by
  obtain ⟨h0, h1, h2, h3, h4⟩ := busLimb_toBus a
  simp [FE.ofBus, h0, h1, h2, h3, h4]

theorem FE.toBus_ofBus (x : BitVec 320) : (FE.ofBus x).toBus = x := by
  apply BitVec.eq_of_getLsbD_eq
  intro i hi
  simp only [busLimb, FE.ofBus, FE.toBus, BitVec.getLsbD_extractLsb', BitVec.getLsbD_append]
  repeat' split
  all_goals (have h : ∀ j, j < 64 → decide (j < 64) = true := fun j h => by simpa using h)
  all_goals (rw [h _ (by omega)]; simp only [Bool.true_and]; exact congrArg (BitVec.getLsbD _) (by omega))

/-- The three fields of a request word (R60). -/
theorem Request.word_fields (r : Request) :
    r.word.extractLsb' 640 4 = r.op ∧ r.word.extractLsb' 320 320 = r.b.toBus ∧ r.word.extractLsb' 0 320 = r.a.toBus := by
  refine ⟨?_, ?_, ?_⟩ <;>
  · apply BitVec.eq_of_getLsbD_eq
    intro i hi
    simp only [Request.word, BitVec.getLsbD_extractLsb', BitVec.getLsbD_append, hi, decide_true, Bool.true_and]
    repeat' split
    all_goals first | omega | exact congrArg (BitVec.getLsbD _) (by omega)

theorem Request.ofWord_word (r : Request) : Request.ofWord r.word = r := by
  obtain ⟨h1, h2, h3⟩ := Request.word_fields r
  simp [Request.ofWord, h1, h2, h3, FE.ofBus_toBus]

/-- Every instruction is what its code and its operands decode to. -/
theorem Request.decode_request (i : Instr) : i.request.decode = i := by
  cases i <;> rfl

end Sys2Proof
end

