-- ==== Sys2Proof/Laws/State.lean ====
section
/-! SUPPORT. One lemma per field per update of State, true by rfl. -/

namespace Sys2Proof.Machine

variable (s : State)

/-! ### enqueue -/

@[simp] theorem State.enqueue_q (i : Instr) (r : Response) : (s.enqueue i r).q = s.q ++ [{ resp := r, done := false }] := rfl
@[simp] theorem State.enqueue_rst (i : Instr) (r : Response) : (s.enqueue i r).rst = s.rst := rfl
@[simp] theorem State.enqueue_params (i : Instr) (r : Response) : (s.enqueue i r).params = s.params := rfl
@[simp] theorem State.enqueue_draws (i : Instr) (r : Response) : (s.enqueue i r).draws = s.draws := rfl
@[simp] theorem State.enqueue_sawReset (i : Instr) (r : Response) : (s.enqueue i r).sawReset = s.sawReset := rfl
@[simp] theorem State.enqueue_waiting (i : Instr) (r : Response) : (s.enqueue i r).waiting = s.waiting := rfl
@[simp] theorem State.enqueue_accepted (i : Instr) (r : Response) : (s.enqueue i r).accepted = s.accepted ++ [i] := rfl
@[simp] theorem State.enqueue_taken (i : Instr) (r : Response) : (s.enqueue i r).taken = s.taken := rfl
@[simp] theorem State.enqueue_moves (i : Instr) (r : Response) : (s.enqueue i r).moves = s.moves := rfl

/-! ### assertReset -/

@[simp] theorem State.assertReset_q : (s.assertReset).q = [] := rfl
@[simp] theorem State.assertReset_rst : (s.assertReset).rst = true := rfl
@[simp] theorem State.assertReset_params : (s.assertReset).params = s.params := rfl
@[simp] theorem State.assertReset_draws : (s.assertReset).draws = s.draws := rfl
@[simp] theorem State.assertReset_sawReset : (s.assertReset).sawReset = true := rfl
@[simp] theorem State.assertReset_waiting : (s.assertReset).waiting = s.waiting := rfl
@[simp] theorem State.assertReset_accepted : (s.assertReset).accepted = [] := rfl
@[simp] theorem State.assertReset_taken : (s.assertReset).taken = [] := rfl
@[simp] theorem State.assertReset_moves : (s.assertReset).moves = s.moves := rfl

/-! ### releaseReset -/

@[simp] theorem State.releaseReset_q : (s.releaseReset).q = s.q := rfl
@[simp] theorem State.releaseReset_rst : (s.releaseReset).rst = false := rfl
@[simp] theorem State.releaseReset_params : (s.releaseReset).params = s.params := rfl
@[simp] theorem State.releaseReset_draws : (s.releaseReset).draws = s.draws := rfl
@[simp] theorem State.releaseReset_sawReset : (s.releaseReset).sawReset = s.sawReset := rfl
@[simp] theorem State.releaseReset_waiting : (s.releaseReset).waiting = s.waiting := rfl
@[simp] theorem State.releaseReset_accepted : (s.releaseReset).accepted = s.accepted := rfl
@[simp] theorem State.releaseReset_taken : (s.releaseReset).taken = s.taken := rfl
@[simp] theorem State.releaseReset_moves : (s.releaseReset).moves = s.moves := rfl

/-! ### clearWaiting -/

@[simp] theorem State.clearWaiting_q : (s.clearWaiting).q = s.q := rfl
@[simp] theorem State.clearWaiting_rst : (s.clearWaiting).rst = s.rst := rfl
@[simp] theorem State.clearWaiting_params : (s.clearWaiting).params = s.params := rfl
@[simp] theorem State.clearWaiting_draws : (s.clearWaiting).draws = s.draws := rfl
@[simp] theorem State.clearWaiting_sawReset : (s.clearWaiting).sawReset = s.sawReset := rfl
@[simp] theorem State.clearWaiting_waiting : (s.clearWaiting).waiting = none := rfl
@[simp] theorem State.clearWaiting_accepted : (s.clearWaiting).accepted = s.accepted := rfl
@[simp] theorem State.clearWaiting_taken : (s.clearWaiting).taken = s.taken := rfl
@[simp] theorem State.clearWaiting_moves : (s.clearWaiting).moves = s.moves := rfl

/-! ### offerNext -/

@[simp] theorem State.offerNext_q (r : Request) : (s.offerNext r).q = s.q := rfl
@[simp] theorem State.offerNext_rst (r : Request) : (s.offerNext r).rst = s.rst := rfl
@[simp] theorem State.offerNext_params (r : Request) : (s.offerNext r).params = s.params := rfl
@[simp] theorem State.offerNext_draws (r : Request) : (s.offerNext r).draws = s.draws := rfl
@[simp] theorem State.offerNext_sawReset (r : Request) : (s.offerNext r).sawReset = s.sawReset := rfl
@[simp] theorem State.offerNext_waiting (r : Request) : (s.offerNext r).waiting = none := rfl
@[simp] theorem State.offerNext_accepted (r : Request) : (s.offerNext r).accepted = s.accepted := rfl
@[simp] theorem State.offerNext_taken (r : Request) : (s.offerNext r).taken = s.taken := rfl
@[simp] theorem State.offerNext_moves (r : Request) : (s.offerNext r).moves = .accept r :: s.moves := rfl

/-! ### withFetchWord -/

@[simp] theorem State.withFetchWord_q (nbits w : Nat) : (s.withFetchWord nbits w).q = s.q := rfl
@[simp] theorem State.withFetchWord_rst (nbits w : Nat) : (s.withFetchWord nbits w).rst = s.rst := rfl
@[simp] theorem State.withFetchWord_params (nbits w : Nat) : (s.withFetchWord nbits w).params = s.params := rfl
@[simp] theorem State.withFetchWord_draws (nbits w : Nat) : (s.withFetchWord nbits w).draws = s.draws := rfl
@[simp] theorem State.withFetchWord_sawReset (nbits w : Nat) : (s.withFetchWord nbits w).sawReset = s.sawReset := rfl
@[simp] theorem State.withFetchWord_waiting (nbits w : Nat) : (s.withFetchWord nbits w).waiting = none := rfl
@[simp] theorem State.withFetchWord_accepted (nbits w : Nat) : (s.withFetchWord nbits w).accepted = s.accepted := rfl
@[simp] theorem State.withFetchWord_taken (nbits w : Nat) : (s.withFetchWord nbits w).taken = s.taken := rfl
@[simp] theorem State.withFetchWord_moves (nbits w : Nat) : (s.withFetchWord nbits w).moves = .accept (tableRequest nbits w) :: s.moves := rfl

/-! ### afterAccept -/

@[simp] theorem State.afterAccept_q (i : Instr) (r : Response) : (s.afterAccept i r).q = s.q ++ [{ resp := r, done := false }] := rfl
@[simp] theorem State.afterAccept_rst (i : Instr) (r : Response) : (s.afterAccept i r).rst = s.rst := rfl
@[simp] theorem State.afterAccept_params (i : Instr) (r : Response) : (s.afterAccept i r).params = s.params := rfl
@[simp] theorem State.afterAccept_draws (i : Instr) (r : Response) : (s.afterAccept i r).draws = s.draws := rfl
@[simp] theorem State.afterAccept_sawReset (i : Instr) (r : Response) : (s.afterAccept i r).sawReset = s.sawReset := rfl
@[simp] theorem State.afterAccept_waiting (i : Instr) (r : Response) : (s.afterAccept i r).waiting = s.waiting := rfl
@[simp] theorem State.afterAccept_accepted (i : Instr) (r : Response) : (s.afterAccept i r).accepted = s.accepted ++ [i] := rfl
@[simp] theorem State.afterAccept_taken (i : Instr) (r : Response) : (s.afterAccept i r).taken = s.taken := rfl
@[simp] theorem State.afterAccept_moves (i : Instr) (r : Response) : (s.afterAccept i r).moves = s.moves := rfl

/-! ### takeOldest -/

@[simp] theorem State.takeOldest_nil (h : s.q = []) : s.takeOldest = s := by
  simp [State.takeOldest, h]

/-- Taking the oldest entry e: e leaves Q and its response is observed (R42, R44). -/
theorem State.takeOldest_cons {e : Entry} {es : List Entry} (h : s.q = e :: es) :
    s.takeOldest = { s with q := es, taken := s.taken ++ [e.resp] } := by
  simp [State.takeOldest, h]

@[simp] theorem State.takeOldest_rst : s.takeOldest.rst = s.rst := by
  unfold State.takeOldest
  split <;> rfl

@[simp] theorem State.takeOldest_params : s.takeOldest.params = s.params := by
  unfold State.takeOldest
  split <;> rfl

@[simp] theorem State.takeOldest_draws : s.takeOldest.draws = s.draws := by
  unfold State.takeOldest
  split <;> rfl

@[simp] theorem State.takeOldest_sawReset : s.takeOldest.sawReset = s.sawReset := by
  unfold State.takeOldest
  split <;> rfl

@[simp] theorem State.takeOldest_waiting : s.takeOldest.waiting = s.waiting := by
  unfold State.takeOldest
  split <;> rfl

@[simp] theorem State.takeOldest_accepted : s.takeOldest.accepted = s.accepted := by
  unfold State.takeOldest
  split <;> rfl

@[simp] theorem State.takeOldest_moves : s.takeOldest.moves = s.moves := by
  unfold State.takeOldest
  split <;> rfl

@[simp] theorem State.takeOldest_q : s.takeOldest.q = s.q.tail := by
  unfold State.takeOldest
  split <;> simp_all

/-- The responses taken and in flight stay the same when one is taken (R51). -/
theorem State.takeOldest_responses :
    s.takeOldest.taken ++ s.takeOldest.q.map Entry.resp = s.taken ++ s.q.map Entry.resp := by
  unfold State.takeOldest
  split <;> simp_all

end Sys2Proof.Machine
end

