-- ==== Sys2Proof/Laws/Ops.lean ====
section
/-! SUPPORT. What each shared operation can do, said once. -/

namespace Sys2Proof.Machine

variable {s t : State}

theorem State.hasRoom_iff : s.hasRoom = true ↔ s.q.length < s.params.depth := by
  simp [State.hasRoom]

/-- Accept is enabled exactly where R41 allows `req_ready` = 1. -/
theorem State.canAccept_iff : s.canAccept = true ↔ s.acceptEnabled := by
  simp [State.canAccept, State.acceptEnabled, State.running, State.hasRoom_iff, and_assoc]

theorem State.reqReady_iff {w : Bool} : s.reqReady w = true ↔ w = true ∧ s.acceptEnabled := by
  simp [State.reqReady, State.canAccept_iff]

/-- `rsp_valid` = 1: Q has an oldest entry and it is done (R42). -/
theorem State.rspValid_iff : s.rspValid = true ↔ ∃ e es, s.q = e :: es ∧ e.done = true := by
  unfold State.rspValid
  split <;> simp_all

/-! ### Acceptance -/

theorem acceptEntry_of_enabled {i : Instr} {r : Response} {n : Nat} (h : s.acceptEnabled) :
    acceptEntry i r n s = .next { s.afterAccept i r with draws := s.draws + n } := by
  obtain ⟨⟨h1, h2⟩, h3⟩ := h
  simp [acceptEntry, h1, h2, State.hasRoom_iff.mpr h3, State.enqueue, State.afterAccept]

/-- If an acceptance answers a next state, Accept was enabled and that state is the one with the new entry. -/
theorem acceptEntry_next {i : Instr} {r : Response} {n : Nat} (h : acceptEntry i r n s = .next t) :
    s.acceptEnabled ∧ t = { s.afterAccept i r with draws := s.draws + n } := by
  have he : s.acceptEnabled := by
    by_contra hc
    rw [← State.canAccept_iff] at hc
    unfold acceptEntry at h
    unfold State.canAccept at hc
    split at h
    · cases h
    · split at h
      · cases h
      · split at h
        · cases h
        · simp_all
  rw [acceptEntry_of_enabled he] at h
  exact ⟨he, by injection h with h; exact h.symm⟩

theorem usesDraw_wrap {p : Params} {b : Bool} (h : p.oorResult = .wrap) : usesDraw p b = false := by
  simp [usesDraw, h]

@[simp] theorem usesDraw_ok (p : Params) : usesDraw p true = false := by
  unfold usesDraw
  split <;> rfl

theorem usesDraw_arbitrary {p : Params} {b : Bool} (h : p.oorResult = .arbitrary) : usesDraw p b = !b := by
  simp [usesDraw, h]

/-- A legal request whose result is not a draw (R65). -/
theorem acceptLegal_of_enabled {i : Instr} {ok : Bool} {c : FE} (h : s.acceptEnabled)
    (hd : usesDraw s.params ok = false) :
    acceptLegal i ok c s = .next (s.afterAccept i { c := c, st := legalStatus s.params ok }) := by
  simp [acceptLegal, acceptEntry_of_enabled h, legalResult, hd, State.afterAccept]

/-- A legal request whose result is a draw (R154). -/
theorem acceptLegal_draw {i : Instr} {ok : Bool} {c : FE} (h : s.acceptEnabled) (hd : usesDraw s.params ok = true) :
    acceptLegal i ok c s =
      .next { s.afterAccept i { c := FE.ofBus (Config.freeElement s.draws), st := legalStatus s.params ok } with
        draws := s.draws + 1 } := by
  simp [acceptLegal, acceptEntry_of_enabled h, legalResult, hd]

theorem acceptReserved_of_enabled {i : Instr} (h : s.acceptEnabled) :
    acceptReserved i s = .next (s.afterAccept i { c := FE.zero, st := reservedStatus }) := by
  simp [acceptReserved, acceptEntry_of_enabled h, State.afterAccept]

/-! ### The status field -/

@[simp] theorem illegalOp_legalStatus (p : Params) (ok : Bool) : illegalOp (legalStatus p ok) = false := by
  cases h : p.checkPrecond <;> cases ok <;> simp [legalStatus, h] <;> rfl

@[simp] theorem preViol_legalStatus (p : Params) (ok : Bool) :
    preViol (legalStatus p ok) = (p.checkPrecond && !ok) := by
  cases h : p.checkPrecond <;> cases ok <;> simp [legalStatus, h] <;> rfl

@[simp] theorem illegalOp_reservedStatus : illegalOp reservedStatus = true := rfl
@[simp] theorem preViol_reservedStatus : preViol reservedStatus = false := rfl

/-- ST is determined by its two bits. -/
theorem Status.ext {x y : Status} (h0 : illegalOp x = illegalOp y) (h1 : preViol x = preViol y) : x = y := by
  apply BitVec.eq_of_getLsbD_eq
  intro i hi
  match i, hi with
  | 0, _ => exact h0
  | 1, _ => exact h1

/-! ### Finish and Take -/

/-- Finish marks the oldest unfinished entry: every entry before it is done (R44). -/
theorem finishOldest_eq_some {q q' : List Entry} (h : finishOldest q = some q') :
    ∃ xs e ys, q = xs ++ e :: ys ∧ (∀ x ∈ xs, x.done = true) ∧ e.done = false ∧
      q' = xs ++ { e with done := true } :: ys := by
  induction q generalizing q' with
  | nil => simp [finishOldest] at h
  | cons x xs ih =>
    unfold finishOldest at h
    split at h
    · rename_i hx
      simp only [Option.map_eq_some_iff] at h
      obtain ⟨r, hr, rfl⟩ := h
      obtain ⟨as, e, ys, rfl, h1, h2, rfl⟩ := ih hr
      refine ⟨x :: as, e, ys, rfl, ?_, h2, rfl⟩
      intro y hy
      rcases List.mem_cons.mp hy with rfl | hy
      · exact hx
      · exact h1 y hy
    · rename_i hx
      simp only [Option.some.injEq] at h
      exact ⟨[], x, xs, rfl, by simp, by simpa using hx, h.symm⟩

theorem finishOldest_split {xs ys : List Entry} {e : Entry} (h1 : ∀ x ∈ xs, x.done = true) (h2 : e.done = false) :
    finishOldest (xs ++ e :: ys) = some (xs ++ { e with done := true } :: ys) := by
  induction xs with
  | nil => simp [finishOldest, h2]
  | cons x xs ih => simp [finishOldest, h1 x (by simp), ih (fun y hy => h1 y (by simp [hy]))]

/-- There is nothing to finish exactly when every entry is done. -/
theorem finishOldest_eq_none {q : List Entry} : finishOldest q = none ↔ ∀ e ∈ q, e.done = true := by
  induction q with
  | nil => simp [finishOldest]
  | cons x xs ih =>
    unfold finishOldest
    split <;> simp_all

/-- Finishing changes no response (R28). -/
theorem finishOldest_resp {q q' : List Entry} (h : finishOldest q = some q') :
    q'.map Entry.resp = q.map Entry.resp := by
  obtain ⟨xs, e, ys, rfl, -, -, rfl⟩ := finishOldest_eq_some h
  simp

theorem finishStep_next (h : finishStep s = .next t) :
    s.running ∧ ∃ q', finishOldest s.q = some q' ∧ t = { s with q := q' } := by
  unfold finishStep at h
  split at h
  · cases h
  · split at h
    · cases h
    · split at h
      · rename_i q' hq
        injection h with h
        exact ⟨⟨by simp_all, by simp_all⟩, q', hq, h.symm⟩
      · cases h

theorem takeStep_next (h : takeStep s = .next t) : s.running ∧ s.rspValid = true ∧ t = s.takeOldest := by
  unfold takeStep at h
  split at h
  · cases h
  · split at h
    · cases h
    · split at h
      · injection h with h
        exact ⟨⟨by simp_all, by simp_all⟩, ‹_›, h.symm⟩
      · cases h

theorem releaseStep_next (h : releaseStep s = .next t) : s.sawReset = true ∧ s.rst = true ∧ t = s.releaseReset := by
  unfold releaseStep at h
  split at h
  · cases h
  · split at h
    · injection h with h
      exact ⟨by simp_all, ‹_›, h.symm⟩
    · cases h

theorem blockMove_next (h : blockMove s = .next t) :
    t = s ∨ s.running ∧ ∃ q', finishOldest s.q = some q' ∧ t = { s with q := q' } := by
  unfold blockMove at h
  split at h
  · rename_i hr
    split at h
    · rename_i q' hq
      injection h with h
      refine .inr ⟨?_, q', hq, h.symm⟩
      simpa [State.running] using hr
    · injection h with h
      exact .inl h.symm
  · injection h with h
    exact .inl h.symm

end Sys2Proof.Machine
end

