-- ==== Sys2Proof/Laws/Step.lean ====
section
/-! SUPPORT. What `exec`, a move and a step can do: the inversion lemmas that invariants are derived from. -/

namespace Sys2Proof.Machine

variable {s t : State}

/-- The response and the number of draws with which an instruction is accepted: F of R65, with R154's draw. -/
def responseOf (i : Instr) (s : State) : Response × Nat :=
  if i.opcode.toNat < 4 then
    ({ c := legalResult s.params (preOk i) (computed i) s.draws, st := legalStatus s.params (preOk i) },
      (usesDraw s.params (preOk i)).toNat)
  else ({ c := FE.zero, st := reservedStatus }, 0)

/-- Every instruction is an acceptance (R41, R50, R65). -/
theorem exec_eq (i : Instr) (s : State) : exec i s = acceptEntry i (responseOf i s).1 (responseOf i s).2 s := by
  cases i <;> rfl

/-- If an instruction answers a next state, Accept was enabled and one entry was appended. -/
theorem exec_next {i : Instr} (h : exec i s = .next t) :
    s.acceptEnabled ∧ t = { s.afterAccept i (responseOf i s).1 with draws := s.draws + (responseOf i s).2 } :=
  acceptEntry_next (exec_eq i s ▸ h)

theorem exec_of_enabled (i : Instr) (h : s.acceptEnabled) :
    exec i s = .next { s.afterAccept i (responseOf i s).1 with draws := s.draws + (responseOf i s).2 } := by
  rw [exec_eq, acceptEntry_of_enabled h]

theorem acceptMove_next {r : Request} (h : acceptMove r s = .next t) :
    s.offerAllowed (some r) = true ∧ exec r.decode s.clearWaiting = .next t := by
  unfold acceptMove at h
  split at h
  · exact ⟨‹_›, h⟩
  · cases h

theorem step_nil (h : s.moves = []) : step s = blockMove s := by
  simp [step, nextStep, h]

theorem step_cons {m : Move} {ms : List Move} (h : s.moves = m :: ms) : step s = runMove m { s with moves := ms } := by
  simp [step, nextStep, h]

theorem step_offerNext (r : Request) : step (s.offerNext r) = exec r.decode s.clearWaiting := by
  rw [step_cons (m := .accept r) (ms := s.moves) rfl]
  rfl

/-- What a rising edge can do, for each value of its signals. -/
theorem edgeMove_next {e : Edge} (h : edgeMove e s = .next t) :
    s.offerAllowed e.offer = true ∧
    (e.rst = true ∧ t = { s.assertReset with waiting := e.offer } ∨
     e.rst = false ∧ s.sawReset = false ∧ e.reqValid = false ∧ e.rspReady = false ∧ t = s ∨
     e.rst = false ∧ s.sawReset = true ∧ s.rst = true ∧ t = { s.releaseReset with waiting := e.offer } ∨
     e.rst = false ∧ s.running ∧ edgeRun e s = .next t) := by
  unfold edgeMove at h
  split at h
  · cases h
  · rename_i ho
    refine ⟨by simpa using ho, ?_⟩
    split at h
    · injection h with h
      exact .inl ⟨‹_›, h.symm⟩
    · rename_i hr
      simp only [Bool.not_eq_true] at hr
      split at h
      · rename_i hs
        split at h
        · cases h
        · rename_i hq
          injection h with h
          exact .inr (.inl ⟨hr, by simpa using hs, by simp_all, by simp_all, h.symm⟩)
      · rename_i hs
        have hs : s.sawReset = true := by simpa using hs
        split at h
        · injection h with h
          exact .inr (.inr (.inl ⟨hr, hs, ‹_›, h.symm⟩))
        · rename_i hx
          exact .inr (.inr (.inr ⟨hr, ⟨hs, by simpa using hx⟩, h⟩))

/-- The state a rising edge outside reset has after its take, if it takes. -/
def afterTake (e : Edge) (s : State) : State := if e.rspReady && s.rspValid then s.takeOldest else s

/-- A rising edge outside reset: a take or none, then an acceptance or none (R45). -/
theorem edgeRun_eq (e : Edge) (s : State) :
    edgeRun e s =
      if e.reqValid && s.reqReady e.willing then exec e.req.decode (afterTake e s).clearWaiting
      else .next { afterTake e s with waiting := e.offer } := rfl

/-- An offer is allowed when nothing else waits (R185). -/
theorem State.offerAllowed_iff {o : Option Request} : s.offerAllowed o = true ↔ s.waiting = none ∨ s.waiting = o := by
  unfold State.offerAllowed
  split
  · simp_all
  · rename_i r h
    rw [h, beq_iff_eq]
    constructor
    · exact fun h => .inr h.symm
    · rintro (h | h)
      · cases h
      · exact h.symm

/-- Outside reset a rising edge is `edgeRun`. -/
theorem edgeMove_of_running {e : Edge} (hr : s.running) (h0 : e.rst = false)
    (hw : s.waiting = none ∨ s.waiting = e.offer) : edgeMove e s = edgeRun e s := by
  simp [edgeMove, State.offerAllowed_iff.mpr hw, h0, hr.1, hr.2]

/-- One step more of the machine behind the host's interface. -/
theorem core_run_succ (h : step s = .next t) (n : Nat) :
    Host.Core.run Sys2Proof.core (n + 1) s = Host.Core.run Sys2Proof.core n t := by
  have h' : Sys2Proof.core.step s = .next t := h
  simp only [Host.Core.run, h']

end Sys2Proof.Machine
end

