-- ==== Sys2Proof/Laws/Fairness.lean ====
section
/-! SUPPORT. The fairness assumptions of R56 can be met: from every state in operation there is an infinite run that meets
them, with a host that is always ready for a response and offers a request of its choice. -/

namespace Sys2Proof.Machine

/-- The rising edge at which a host offers the request that waits, or else `want`, and takes a response, with a willing block. -/
def openEdge (want : Option Request) (s : State) : Edge :=
  let o := s.waiting.or want
  { rst := false, reqValid := o.isSome, req := o.getD ⟨0, FE.zero, FE.zero⟩, rspReady := true, willing := true }

/-- The block finishes an entry if it can, and otherwise the clock ticks. -/
def fairMove (want : Option Request) (s : State) : Move :=
  if (finishOldest s.q).isSome then .finish else .edge (openEdge want s)

/-- The next state of the run; `s` itself where the step stops, which in operation it does not. -/
def fairNext (want : Option Request) (s : State) : State :=
  match step { s with moves := [fairMove want s] } with
  | .next t => t
  | .fault _ => s
  | .refused _ => s

def fairState (want : Option Request) (s : State) : Nat → State
  | 0 => s
  | n + 1 => fairNext want (fairState want s n)

variable {s : State} {want : Option Request}

@[simp] theorem openEdge_offer : (openEdge want s).offer = s.waiting.or want := by
  unfold openEdge Edge.offer
  cases s.waiting.or want <;> rfl

/-- One step of the run: it finishes the oldest unfinished entry, or there is none and it is the edge. -/
theorem fairNext_spec (hr : s.running) :
    step { s with moves := [fairMove want s] } = .next (fairNext want s) ∧ (fairNext want s).running ∧
    (∀ q', finishOldest s.q = some q' → fairNext want s = { s with q := q', moves := [] }) := by
  have hf : ∀ t, step { s with moves := [fairMove want s] } = .next t →
      step { s with moves := [fairMove want s] } = .next (fairNext want s) ∧ fairNext want s = t := by
    intro t h
    have : fairNext want s = t := by rw [fairNext, h]
    exact ⟨this ▸ h, this⟩
  cases hq : finishOldest s.q with
  | some q' =>
    have h : step { s with moves := [fairMove want s] } = .next { s with q := q', moves := [] } := by
      rw [step_cons (m := fairMove want s) (ms := []) rfl, fairMove, hq]
      simp [runMove, finishStep, hr.1, hr.2, hq]
    obtain ⟨h1, h2⟩ := hf _ h
    refine ⟨h1, h2 ▸ hr, ?_⟩
    rintro q'' ⟨⟩
    exact h2
  | none =>
    have he : step { s with moves := [fairMove want s] } = edgeRun (openEdge want s) { s with moves := [] } := by
      rw [step_cons (m := fairMove want s) (ms := []) rfl, fairMove, hq]
      refine edgeMove_of_running (s := { s with moves := [] }) hr rfl ?_
      show s.waiting = none ∨ s.waiting = _
      rw [openEdge_offer]
      cases s.waiting <;> simp
    have hk : (afterTake (openEdge want s) { s with moves := [] }).running := by
      unfold afterTake
      split
      · exact ⟨by simpa using hr.1, by simpa using hr.2⟩
      · exact hr
    suffices ∃ t, edgeRun (openEdge want s) { s with moves := [] } = .next t ∧ t.running by
      obtain ⟨t, h1, h2⟩ := this
      obtain ⟨h3, h4⟩ := hf t (he.trans h1)
      exact ⟨h3, h4 ▸ h2, by simp⟩
    rw [edgeRun_eq]
    split
    · rename_i hc
      simp only [Bool.and_eq_true, State.reqReady_iff] at hc
      have hl : (afterTake (openEdge want s) { s with moves := [] }).q.length ≤ s.q.length ∧
          (afterTake (openEdge want s) { s with moves := [] }).params = s.params := by
        unfold afterTake
        split <;> simp
      have hen : (afterTake (openEdge want s) { s with moves := [] }).clearWaiting.acceptEnabled := by
        refine ⟨hk, ?_⟩
        have h1 : s.q.length < s.params.depth := hc.2.2.2
        show (afterTake (openEdge want s) { s with moves := [] }).q.length <
          (afterTake (openEdge want s) { s with moves := [] }).params.depth
        rw [hl.2]
        omega
      exact ⟨_, exec_of_enabled _ hen, hk⟩
    · exact ⟨_, rfl, hk⟩

/-- From every state in operation there is a run that meets R56's assumptions and in which the host takes responses. -/
theorem exists_live_run (want : Option Request) (hr : s.running) :
    ∃ (σ : Nat → State) (μ : Nat → Move), σ 0 = s ∧ IsRun σ μ ∧ RunningFrom 0 σ ∧ BlockLive σ μ ∧ HostTakes μ ∧
      ∀ n, σ (n + 1) = fairNext want (σ n) ∧ μ n = fairMove want (σ n) := by
  have hrun : ∀ n, (fairState want s n).running := by
    intro n
    induction n with
    | zero => exact hr
    | succ n ih => exact (fairNext_spec ih).2.1
  have hfin : ∀ u n, unfinished (fairState want s n).q = u → ∃ m, n ≤ m ∧ finishOldest (fairState want s m).q = none ∧
      (fairState want s m).taken = (fairState want s n).taken ∧
      (fairState want s m).q.length = (fairState want s n).q.length := by
    intro u
    induction u with
    | zero =>
      intro n hu
      refine ⟨n, le_rfl, finishOldest_eq_none.mpr ?_, rfl, rfl⟩
      simpa [unfinished] using hu
    | succ u ih =>
      intro n hu
      cases hq : finishOldest (fairState want s n).q with
      | none => exact ⟨n, le_rfl, hq, rfl, rfl⟩
      | some q' =>
        have hn : fairState want s (n + 1) = _ := (fairNext_spec (want := want) (hrun n)).2.2 q' hq
        obtain ⟨xs, e, ys, h1, -, h3, h4⟩ := finishOldest_eq_some hq
        have hu' : unfinished q' = u := by
          rw [h1] at hu
          rw [h4]
          simp [unfinished, h3] at hu ⊢
          omega
        have hl : q'.length = (fairState want s n).q.length := by
          rw [h1, h4]
          simp
        obtain ⟨m, h5, h6, h7, h8⟩ := ih (n + 1) (by rw [hn]; exact hu')
        rw [hn] at h7 h8
        exact ⟨m, by omega, h6, h7, h8.trans hl⟩
  have hedge : ∀ n, ∃ m, n ≤ m ∧ fairMove want (fairState want s m) = .edge (openEdge want (fairState want s m)) := by
    intro n
    obtain ⟨m, h1, h2, -⟩ := hfin _ n rfl
    exact ⟨m, h1, by simp [fairMove, h2]⟩
  refine ⟨fairState want s, fun n => fairMove want (fairState want s n), rfl, fun n => (fairNext_spec (hrun n)).1,
    fun n _ => hrun n, fun _ n0 _ => ⟨?_, ?_⟩, ?_, fun n => ⟨rfl, rfl⟩⟩
  · intro n k _ hk
    obtain ⟨m, h1, h2, h3, h4⟩ := hfin _ n rfl
    refine ⟨m, h1, ?_⟩
    by_cases hlt : k < (fairState want s m).taken.length
    · exact .inl hlt
    · have hi : k - (fairState want s m).taken.length < (fairState want s m).q.length := by
        rw [h3] at hlt ⊢
        omega
      exact .inr ⟨_, List.getElem?_eq_getElem hi, finishOldest_eq_none.mp h2 _ (List.getElem_mem hi)⟩
  · rintro ⟨n1, hroom⟩ n
    obtain ⟨m, h1, h2⟩ := hedge (max n n1)
    refine ⟨m, by omega, _, h2, State.reqReady_iff.mpr ⟨rfl, hrun m, ?_⟩⟩
    exact hroom m (by omega) ⟨_, h2, trivial⟩
  · intro n
    obtain ⟨m, h1, h2⟩ := hedge n
    exact ⟨m, h1, _, h2, rfl⟩

end Sys2Proof.Machine
end

