-- ==== Sys2Proof/Laws/PerInstr.lean ====
section
/-! SUPPORT. The family TableRow: the word of an instruction holds the code of its row in spec/opcode_table.json in bits
[643:640] (30_encoding.md R60, R62, R64), one lemma per constructor. -/

namespace Sys2Proof.Laws.TableRow

/-- The instruction is well-formed and bits [643:640] of its word are its row's code. -/
def Statement (i : Instr) : Prop := i.WellFormed ∧ (encode i).extractLsb' 640 4 = i.opcode

theorem of_word (i : Instr) : Statement i := ⟨trivial, (Request.word_fields i.request).1⟩

theorem add (a b : FE) : Statement (.add a b) := of_word _
theorem sub (a b : FE) : Statement (.sub a b) := of_word _
theorem reduce (a b : FE) : Statement (.reduce a b) := of_word _
theorem mult (a b : FE) : Statement (.mult a b) := of_word _
theorem op4 (a b : FE) : Statement (.op4 a b) := of_word _
theorem op5 (a b : FE) : Statement (.op5 a b) := of_word _
theorem op6 (a b : FE) : Statement (.op6 a b) := of_word _
theorem op7 (a b : FE) : Statement (.op7 a b) := of_word _
theorem op8 (a b : FE) : Statement (.op8 a b) := of_word _
theorem op9 (a b : FE) : Statement (.op9 a b) := of_word _
theorem opA (a b : FE) : Statement (.opA a b) := of_word _
theorem opB (a b : FE) : Statement (.opB a b) := of_word _
theorem opC (a b : FE) : Statement (.opC a b) := of_word _
theorem opD (a b : FE) : Statement (.opD a b) := of_word _
theorem opE (a b : FE) : Statement (.opE a b) := of_word _
theorem opF (a b : FE) : Statement (.opF a b) := of_word _

end Sys2Proof.Laws.TableRow
end

