-- ==== Sys2Proof/Laws/Preconditions.lean ====
section
/-! SUPPORT. What each precondition check of the model decides, as a proposition over limb integers. -/

namespace Sys2Proof.Machine

theorem inRange64_iff (v : Int) : inRange64 v ↔ fits64 v = true := by
  rw [fits64_iff]
  rfl

/-- pre_ok(ADD) is R80's condition on the exact lane sums. -/
theorem addPreOk_iff (a b : FE) : addPreOk a b = true ↔ ∀ i, inRange64 (limbValue a i + limbValue b i) := by
  simp only [inRange64_iff, forall_limb, addPreOk, Bool.and_eq_true, and_assoc]
  rfl

/-- pre_ok(SUB) is R80's condition on the exact lane differences. -/
theorem subPreOk_iff (a b : FE) : subPreOk a b = true ↔ ∀ i, inRange64 (limbValue a i - limbValue b i) := by
  simp only [inRange64_iff, forall_limb, subPreOk, Bool.and_eq_true, and_assoc]
  rfl

/-- pre_ok(MULT) is R120's bound on every limb of both operands. -/
theorem multPreOk_iff (a b : FE) : multPreOk a b = true ↔ multDuty a b := by
  simp only [multPreOk, multOperandOk, multLimbOk, multDuty, limbsIn, forall_limb, Bool.and_eq_true, decide_eq_true_eq,
    and_assoc]
  norm_num [limbValue, Config.multLimbMax]

/-- A result is no draw under `Wrap`, and none inside the precondition (R154). -/
theorem usesDraw_eq_false {p : Params} {ok : Bool} (h : p.oorResult = .wrap ∨ ok = true) : usesDraw p ok = false := by
  rcases h with h | h
  · exact usesDraw.eq_def p ok ▸ by simp [h]
  · unfold usesDraw
    split <;> simp [h]

end Sys2Proof.Machine
end

