-- ==== Sys2Proof/Laws/Reduce.lean ====
section
/-! SUPPORT. The carry steps and the fold step of REDUCE, limb by limb (41_reduce.md R101, R103, R105). -/

namespace Sys2Proof.Machine

variable (t : FE)

theorem carryStep_zero :
    carryStep 0 t = { t with l0 := s64 (t.l0.value - shl51 (carryOf t.l0)), l1 := s64 (t.l1.value + carryOf t.l0) } := rfl

theorem carryStep_one :
    carryStep 1 t = { t with l1 := s64 (t.l1.value - shl51 (carryOf t.l1)), l2 := s64 (t.l2.value + carryOf t.l1) } := rfl

theorem carryStep_two :
    carryStep 2 t = { t with l2 := s64 (t.l2.value - shl51 (carryOf t.l2)), l3 := s64 (t.l3.value + carryOf t.l2) } := rfl

theorem carryStep_three :
    carryStep 3 t = { t with l3 := s64 (t.l3.value - shl51 (carryOf t.l3)), l4 := s64 (t.l4.value + carryOf t.l3) } := rfl

/-- What is left of a limb after its carry is taken out: its floor modulus, with no overflow (R103). -/
theorem value_rest (x : Limb) : (s64 (x.value - shl51 (carryOf x))).value = x.value % 2251799813685248 := by
  have h := shr51_spec x.value
  rw [carryOf, value_s64_of_range (by norm_num; omega) (by norm_num; omega), sub_shl51_shr51]

theorem carryOf_range (x : Limb) : -4096 ≤ carryOf x ∧ carryOf x ≤ 4095 :=
  shr51_range (value_range x).1 (value_range x).2

theorem carryOf_eq (x : Limb) : carryOf x = x.value / 2251799813685248 := rfl

/-- The addition of `fold_step` never overflows once limb 0 is in [0, 2^51) (R103). -/
theorem value_fold {x y : Limb} (h1 : 0 ≤ x.value) (h2 : x.value < 2251799813685248) :
    (s64 (x.value + Config.fold * carryOf y)).value = x.value + 19 * carryOf y := by
  have h := carryOf_range y
  unfold Config.fold
  rw [value_s64_of_range] <;> norm_num <;> omega

end Sys2Proof.Machine
end

