-- ==== Sys2Proof/Tests/Slice0.lean ====
section
/-! SUPPORT. The model's own tests. Expected values come from 95_test_vectors.md or are worked out by hand from the rule named
beside them. The theorems `test_hyp_…` show that the hypotheses of the statements can be met, at boundary values. -/

namespace Sys2Proof.Tests

open Sys2Proof Sys2Proof.Machine

/-! ### Helpers -/

/-- CHECK_PRECOND = 1. -/
def checked : Params := { Params.default with checkPrecond := true }

/-- OOR_RESULT = Arbitrary and CHECK_PRECOND = 1. -/
def drawing : Params := { checked with oorResult := .arbitrary }

/-- The state after reset with some parameters, queue and agenda. -/
def at' (p : Params) (q : List Entry) (ms : List Move) : State := { State.reset with params := p, q := q, moves := ms }

/-- The limb integers of the newest response in Q, and its status. -/
def newest (r : Result) : Option (List Int × Status) :=
  (nextState r).bind fun s => s.q.getLast?.map fun e =>
    ([limbValue e.resp.c 0, limbValue e.resp.c 1, limbValue e.resp.c 2, limbValue e.resp.c 3, limbValue e.resp.c 4], e.resp.st)

/-- A response to fill a queue with. -/
def resp (n : Int) : Response := ⟨ofInts n 0 0 0 0, 0b00⟩

/-- An edge outside reset with a request and `rsp_ready`. -/
def busyEdge (r : Request) : Edge := ⟨false, true, r, true, true⟩

def one : FE := ⟨1, 2, 3, 4, 5⟩
def ten : FE := ⟨10, 20, 30, 40, 50⟩

/-! ### Well-formedness: each check refuses an ill-formed term -/

theorem test_wf_depth_zero_refused : Params.wellFormed { Params.default with depth := 0 } = false := by decide
theorem test_wf_depth_one_allowed : Params.wellFormed { Params.default with depth := 1 } = true := by decide
theorem test_wf_word_length_refused : wordWellFormed 643 0 = false := by decide +kernel
theorem test_wf_word_too_wide_refused : wordWellFormed 644 (2 ^ 644) = false := by decide +kernel
theorem test_wf_word_widest_allowed : wordWellFormed 644 (2 ^ 644 - 1) = true := by decide +kernel
theorem test_wf_int_above_refused : intWellFormed (2 ^ 63) = false := by decide
theorem test_wf_int_below_refused : intWellFormed (-2 ^ 63 - 1) = false := by decide
theorem test_wf_int_ends_allowed : intWellFormed (-2 ^ 63) = true ∧ intWellFormed (2 ^ 63 - 1) = true := by decide
theorem test_wf_literal_refused : Literal.wellFormed ⟨0, 0, 0, 0, 2 ^ 63⟩ = false := by decide
theorem test_wf_name_unbound_refused : Operand.wellFormed [['x']] (.name ['y']) = false := by decide
theorem test_wf_arity_reduce_refused :
    Line.wellFormed [] (.request none .reduce [.lit ⟨0, 0, 0, 0, 0⟩, .lit ⟨0, 0, 0, 0, 0⟩]) = false := by decide
theorem test_wf_arity_add_refused : Line.wellFormed [] (.request none .add [.lit ⟨0, 0, 0, 0, 0⟩]) = false := by decide
theorem test_wf_later_name_refused :
    linesWellFormed [] [.request none .reduce [.name ['x']], .new ['x'] ⟨0, 0, 0, 0, 0⟩] = false := by decide
theorem test_wf_earlier_name_allowed :
    linesWellFormed [] [.new ['x'] ⟨0, 0, 0, 0, 0⟩, .reduce2 ['y'] (.name ['x'])] = true := by decide

/-! ### Decoding: a word written out from R60 for every row of the opcode table (OP, b[4] … b[0], a[4] … a[0]) -/

theorem test_decode_add : decode 644
    0x000000000000000320000000000000028000000000000001E0000000000000014000000000000000A00000000000000050000000000000004000000000000000300000000000000020000000000000001
    = .ok (.add one ten) := by decide +kernel
theorem test_decode_sub : decode 644
    0x100000000000000320000000000000028000000000000001E0000000000000014000000000000000A00000000000000050000000000000004000000000000000300000000000000020000000000000001
    = .ok (.sub one ten) := by decide +kernel
theorem test_decode_reduce : decode 644
    0x200000000000000320000000000000028000000000000001E0000000000000014000000000000000A00000000000000050000000000000004000000000000000300000000000000020000000000000001
    = .ok (.reduce one ten) := by decide +kernel
theorem test_decode_mult : decode 644
    0x300000000000000320000000000000028000000000000001E0000000000000014000000000000000A00000000000000050000000000000004000000000000000300000000000000020000000000000001
    = .ok (.mult one ten) := by decide +kernel
theorem test_decode_op4 : decode 644
    0x400000000000000320000000000000028000000000000001E0000000000000014000000000000000A00000000000000050000000000000004000000000000000300000000000000020000000000000001
    = .ok (.op4 one ten) := by decide +kernel
theorem test_decode_op5 : decode 644
    0x500000000000000320000000000000028000000000000001E0000000000000014000000000000000A00000000000000050000000000000004000000000000000300000000000000020000000000000001
    = .ok (.op5 one ten) := by decide +kernel
theorem test_decode_op6 : decode 644
    0x600000000000000320000000000000028000000000000001E0000000000000014000000000000000A00000000000000050000000000000004000000000000000300000000000000020000000000000001
    = .ok (.op6 one ten) := by decide +kernel
theorem test_decode_op7 : decode 644
    0x700000000000000320000000000000028000000000000001E0000000000000014000000000000000A00000000000000050000000000000004000000000000000300000000000000020000000000000001
    = .ok (.op7 one ten) := by decide +kernel
theorem test_decode_op8 : decode 644
    0x800000000000000320000000000000028000000000000001E0000000000000014000000000000000A00000000000000050000000000000004000000000000000300000000000000020000000000000001
    = .ok (.op8 one ten) := by decide +kernel
theorem test_decode_op9 : decode 644
    0x900000000000000320000000000000028000000000000001E0000000000000014000000000000000A00000000000000050000000000000004000000000000000300000000000000020000000000000001
    = .ok (.op9 one ten) := by decide +kernel
theorem test_decode_opA : decode 644
    0xA00000000000000320000000000000028000000000000001E0000000000000014000000000000000A00000000000000050000000000000004000000000000000300000000000000020000000000000001
    = .ok (.opA one ten) := by decide +kernel
theorem test_decode_opB : decode 644
    0xB00000000000000320000000000000028000000000000001E0000000000000014000000000000000A00000000000000050000000000000004000000000000000300000000000000020000000000000001
    = .ok (.opB one ten) := by decide +kernel
theorem test_decode_opC : decode 644
    0xC00000000000000320000000000000028000000000000001E0000000000000014000000000000000A00000000000000050000000000000004000000000000000300000000000000020000000000000001
    = .ok (.opC one ten) := by decide +kernel
theorem test_decode_opD : decode 644
    0xD00000000000000320000000000000028000000000000001E0000000000000014000000000000000A00000000000000050000000000000004000000000000000300000000000000020000000000000001
    = .ok (.opD one ten) := by decide +kernel
theorem test_decode_opE : decode 644
    0xE00000000000000320000000000000028000000000000001E0000000000000014000000000000000A00000000000000050000000000000004000000000000000300000000000000020000000000000001
    = .ok (.opE one ten) := by decide +kernel
theorem test_decode_opF : decode 644
    0xF00000000000000320000000000000028000000000000001E0000000000000014000000000000000A00000000000000050000000000000004000000000000000300000000000000020000000000000001
    = .ok (.opF one ten) := by decide +kernel

/-- R70's example: b[4] = 0xFFFFFFFFFFFFFFFF in bits [639:576], a[0] = 1 in bits [63:0]. -/
theorem test_decode_r70 : decode 644
    0x0FFFFFFFFFFFFFFFF000000000000000000000000000000000000000000000000000000000000000000000000000000050000000000000004000000000000000300000000000000020000000000000001
    = .ok (.add one ⟨0, 0, 0, 0, 0xFFFFFFFFFFFFFFFF⟩) := by decide +kernel
theorem test_decode_length_refused : decode 645 0 = .error .wrongLength := by decide +kernel
theorem test_decode_too_wide_refused : decode 644 (2 ^ 644) = .error .beyondWord := by decide +kernel
theorem test_encode_p3 : encode (.mult ⟨1, 1, 1, 1, 1⟩ ⟨2, 2, 2, 2, 2⟩) =
    0x30000000000000002000000000000000200000000000000020000000000000002000000000000000200000000000000010000000000000001000000000000000100000000000000010000000000000001 := by decide +kernel
theorem test_response_word : (Response.mk ⟨1, 0, 0, 0, 5⟩ 0b10).word =
    BitVec.ofNat 322 (2 ^ 321 + 5 * 2 ^ 256 + 1) := by decide +kernel
theorem test_table_rows : (List.range 16).map (fun k => (decodeTableWord 8 k).map Instr.opcode)
    = (List.range 16).map (fun k => some (BitVec.ofNat 4 k)) := by decide +kernel
theorem test_table_full_word : decodeTableWord 644 (2 ^ 640 + 7) = some (.sub ⟨7, 0, 0, 0, 0⟩ FE.zero) := by decide +kernel

/-! ### Results, from 95_test_vectors.md -/

theorem test_add_v6 : newest (exec (.add (ofInts 0 0 0 0 (-9223372036854775808)) (ofInts 0 0 0 0 (-1))) (at' checked [] [])) =
    some ([0, 0, 0, 0, 9223372036854775807], 2) := by decide
theorem test_sub_v1 : newest (exec (.sub (ofInts 5 5 5 5 5) (ofInts 1 2 3 4 6)) (at' checked [] [])) =
    some ([4, 3, 2, 1, -1], 0) := by decide
theorem test_sub_v6 : newest (exec (.sub (ofInts 0 0 (-9223372036854775808) 0 0) (ofInts 0 0 1 0 0)) (at' checked [] [])) =
    some ([0, 0, 9223372036854775807, 0, 0], 2) := by decide
theorem test_reduce_v10 : newest (exec (.reduce (ofInts 9223372036854775807 9223372036854775807 0 0 0) (ofInts 0 0 0 0 0)) (at' checked [] [])) =
    some ([2251799813685228, 4094, 2251799813681152, 2251799813685247, 2251799813685247], 2) := by decide
theorem test_reduce_v14 : newest (exec (.reduce (ofInts 4503599627370495 1 1 1 1) (ofInts 9 (-9) 9223372036854775807 (-9223372036854775808) 5)) (at' checked [] [])) =
    some ([2251799813685247, 2, 1, 1, 1], 0) := by decide
theorem test_mult_v8 : newest (exec (.mult (ofInts (-4503599627370495) (-4503599627370495) (-4503599627370495) (-4503599627370495) (-4503599627370495)) (ofInts 4503599627370495 4503599627370495 4503599627370495 4503599627370495 4503599627370495)) (at' checked [] [])) =
    some ([2251799813683784, 2251799813685116, 2251799813685134, 2251799813685152, 2251799813685170], 0) := by decide
theorem test_op4_ill1 : newest (exec (.op4 (ofInts 1 1 1 1 1) (ofInts 2 2 2 2 2)) (at' Params.default [] [])) =
    some ([0, 0, 0, 0, 0], 1) := by decide
theorem test_opF_ill2 : newest (exec (.opF (ofInts 9223372036854775807 9223372036854775807 9223372036854775807 9223372036854775807 9223372036854775807) (ofInts (-9223372036854775808) 0 0 0 0)) (at' checked [] [])) =
    some ([0, 0, 0, 0, 0], 1) := by decide
theorem test_op7_ill3 : newest (exec (.op7 (ofInts 5 5 5 5 5) (ofInts 5 5 5 5 5)) (at' checked [] [])) =
    some ([0, 0, 0, 0, 0], 1) := by decide
theorem test_add_st2_unchecked : newest (exec (.add (ofInts 9223372036854775807 0 0 0 0) (ofInts 1 0 0 0 0)) (at' Params.default [] [])) =
    some ([-9223372036854775808, 0, 0, 0, 0], 0) := by decide
theorem test_op5_illegal : newest (exec (.op5 one ten) (at' drawing [] [])) = some ([0, 0, 0, 0, 0], 1) := by decide
theorem test_op6_illegal : newest (exec (.op6 one ten) (at' drawing [] [])) = some ([0, 0, 0, 0, 0], 1) := by decide
theorem test_op8_illegal : newest (exec (.op8 one ten) (at' drawing [] [])) = some ([0, 0, 0, 0, 0], 1) := by decide
theorem test_op9_illegal : newest (exec (.op9 one ten) (at' drawing [] [])) = some ([0, 0, 0, 0, 0], 1) := by decide
theorem test_opA_illegal : newest (exec (.opA one ten) (at' drawing [] [])) = some ([0, 0, 0, 0, 0], 1) := by decide
theorem test_opB_illegal : newest (exec (.opB one ten) (at' drawing [] [])) = some ([0, 0, 0, 0, 0], 1) := by decide
theorem test_opC_illegal : newest (exec (.opC one ten) (at' drawing [] [])) = some ([0, 0, 0, 0, 0], 1) := by decide
theorem test_opD_illegal : newest (exec (.opD one ten) (at' drawing [] [])) = some ([0, 0, 0, 0, 0], 1) := by decide
theorem test_opE_illegal : newest (exec (.opE one ten) (at' drawing [] [])) = some ([0, 0, 0, 0, 0], 1) := by decide

/-- V-MULT-6: the limbs after step 4 and after one REDUCE pass. -/
theorem test_mult_v6_steps :
    multNarrowed (ofInts 281474976710656 0 0 0 0) (ofInts 2251799813685240 2251799813685247 2251799813685247 2251799813685247
      1896252474682319) = ofInts 4503599627370491 2251799813685247 2251799813685247 2251799813685247 2251799813685247 ∧
    reduceDatapath (ofInts 4503599627370491 2251799813685247 2251799813685247 2251799813685247 2251799813685247)
      = ofInts 2251799813685262 0 0 0 0 := by decide
/-- The 136-bit accumulators on the largest magnitudes: every limb -2^63. -/
theorem test_accumulator_extreme :
    accMultNarrowed (ofInts (-2 ^ 63) (-2 ^ 63) (-2 ^ 63) (-2 ^ 63) (-2 ^ 63)) (ofInts (-2 ^ 63) (-2 ^ 63) (-2 ^ 63) (-2 ^ 63) (-2 ^ 63))
    = multNarrowed (ofInts (-2 ^ 63) (-2 ^ 63) (-2 ^ 63) (-2 ^ 63) (-2 ^ 63)) (ofInts (-2 ^ 63) (-2 ^ 63) (-2 ^ 63) (-2 ^ 63) (-2 ^ 63)) := by
  decide +kernel
/-- R154: under Arbitrary a failed precondition uses one draw, a met one none. -/
theorem test_arbitrary_draws :
    (nextState (exec (.add (ofInts 9223372036854775807 0 0 0 0) one) (at' drawing [] []))).map State.draws = some 1 ∧
    (nextState (exec (.add one ten) (at' drawing [] []))).map State.draws = some 0 := by decide
/-- R154: ST is the same under both settings of OOR_RESULT. -/
theorem test_arbitrary_status :
    (newest (exec (.mult (ofInts 4503599627370496 0 0 0 0) one) (at' drawing [] []))).map Prod.snd = some 0b10 := by decide

/-! ### Moves and edges -/

/-- P3, steps 2 and 3 of its trace: Accept is refused on a full queue (DEPTH = 2). -/
theorem test_step_full_refused :
    step (at' Params.default [⟨resp 1, false⟩, ⟨resp 2, false⟩] [.accept ⟨3, one, ten⟩]) = .refused .queueFull := rfl
/-- P3, step 6: Finish marks the oldest unfinished entry. -/
theorem test_step_finish :
    (nextState (step (at' Params.default [⟨resp 1, true⟩, ⟨resp 2, false⟩] [.finish]))).map State.q =
      some [⟨resp 1, true⟩, ⟨resp 2, true⟩] := by decide
theorem test_step_take :
    (nextState (step (at' Params.default [⟨resp 1, true⟩, ⟨resp 2, false⟩] [.take]))).map (fun t => (t.q, t.taken)) =
      some ([⟨resp 2, false⟩], [resp 1]) := by decide
theorem test_step_take_refused :
    step (at' Params.default [⟨resp 1, false⟩] [.take]) = .refused .noResponse := rfl
/-- P4, step 3. -/
theorem test_step_reset :
    (nextState (step (at' Params.default [⟨resp 1, true⟩] [.reset]))).map (fun t => (t.q, t.rst)) = some ([], true) := by decide
theorem test_step_power_on_refused : step (State.powerOn.withFetchWord 8 0) = .refused .beforeFirstReset := rfl
/-- R45: with a full queue the take happens and the request waits. -/
theorem test_edge_full_takes_and_waits :
    (nextState (step (at' Params.default [⟨resp 1, true⟩, ⟨resp 2, false⟩] [.edge (busyEdge ⟨0, one, ten⟩)]))).map
      (fun t => (t.q, t.taken, t.waiting)) = some ([⟨resp 2, false⟩], [resp 1], some ⟨0, one, ten⟩) := by decide
/-- R45: with room both happen on one edge; ADD's result is V-ADD-1. -/
theorem test_edge_takes_and_accepts :
    (nextState (step (at' Params.default [⟨resp 1, true⟩] [.edge (busyEdge ⟨0, one, ten⟩)]))).map
      (fun t => (t.q, t.taken, t.waiting)) = some ([⟨⟨ofInts 11 22 33 44 55, 0⟩, false⟩], [resp 1], none) := by decide
/-- R180: in the cycle after a reset edge nothing is accepted. -/
theorem test_edge_after_reset_accepts_nothing :
    (nextState (edgeMove (busyEdge ⟨0, one, ten⟩) State.reset.assertReset)).map (fun t => (t.q, t.rst, t.waiting)) =
      some ([], false, some ⟨0, one, ten⟩) := by decide
/-- R185: a withdrawn request. -/
theorem test_edge_withdrawn_refused :
    step { at' Params.default [] [.edge ⟨false, false, ⟨0, one, ten⟩, false, true⟩] with waiting := some ⟨0, one, ten⟩ } =
      .refused .requestChanged := rfl

/-! ### The text syntax -/

theorem test_text_add : readLine "r1 = ADD (1,2,3,4,5), (10,20,30,40,50)".toList =
    some (.request (some "r1".toList) .add [.lit ⟨1, 2, 3, 4, 5⟩, .lit ⟨10, 20, 30, 40, 50⟩]) := by decide
theorem test_text_reduce2 : readLine "t = REDUCE2 s       ; a comment".toList =
    some (.reduce2 "t".toList (.name "s".toList)) := by decide
theorem test_text_reserved_powers : readLine "OP.C (2^63-1,0,-0x10,0,0), x".toList =
    some (.request none (.op 0xC) [.lit ⟨9223372036854775807, 0, -16, 0, 0⟩, .name "x".toList]) := by decide
theorem test_text_trailing_refused : readLine "ADD x, y, z".toList = none := by decide

/-! ### The hypotheses of the statements can be met -/

theorem enabled_of {p : Params} {q : List Entry} {ms : List Move} (h : q.length < p.depth) : (at' p q ms).acceptEnabled :=
  ⟨⟨rfl, rfl⟩, h⟩

/-- OpcodeMapReadsOpAlone, UnreadOperandsTakeNoPart: the least and the greatest reserved code, and the code below them. -/
theorem test_hyp_reserved_bounds : 4 ≤ (0x4#4).toNat ∧ 4 ≤ (0xF#4).toNat ∧ ¬ 4 ≤ (0x3#4).toNat := by decide
/-- OnlyOneRequestLength: each clause at its boundary. -/
theorem test_hyp_lengths : 643 ≠ 644 ∧ 645 ≠ 644 ∧ 2 ^ 644 ≤ 2 ^ 644 ∧ 2 ^ 644 - 1 < 2 ^ 644 := by decide +kernel
/-- DecodeInvertsEncode. -/
theorem test_hyp_wellformed : (Instr.sub one ten).WellFormed := trivial

/-- Accept is enabled, with one entry less than DEPTH in flight, under every setting: AddAnswersWrappedLaneSums and the other
statements about `exec` with this hypothesis. -/
theorem test_hyp_enabled : (at' drawing [⟨resp 1, false⟩] []).acceptEnabled ∧ (at' Params.default [] []).acceptEnabled :=
  ⟨enabled_of (by decide), enabled_of (by decide)⟩
/-- AddAnswersWrappedLaneSums: the case Wrap with a failing precondition, and the case of a met one at both ends. -/
theorem test_hyp_add : (at' Params.default [] []).params.oorResult = .wrap ∧
    (¬ ∀ i, inRange64 (limbValue (ofInts 9223372036854775807 0 0 0 0) i + limbValue one i)) ∧
    ∀ i, inRange64 (limbValue (ofInts 9223372036854775807 (-9223372036854775808) 0 0 0) i + limbValue (ofInts 0 0 1 0 0) i) := by
  refine ⟨rfl, ?_, ?_⟩
  · rw [← addPreOk_iff]
    decide
  · rw [← addPreOk_iff]
    decide
/-- SubAnswersWrappedLaneDifferences. -/
theorem test_hyp_sub : (¬ ∀ i, inRange64 (limbValue FE.zero i - limbValue (ofInts (-9223372036854775808) 0 0 0 0) i)) ∧
    ∀ i, inRange64 (limbValue (ofInts (-1) (-9223372036854775808) 0 0 0) i - limbValue (ofInts (-9223372036854775808) 0 0 0 0) i) := by
  constructor
  · rw [← subPreOk_iff]
    decide
  · rw [← subPreOk_iff]
    decide
/-- ReduceAnswersOneCarryPass: the four carry sums of V-RED-11, inside 64 bits at the upper end. -/
theorem test_hyp_reduce : (at' drawing [] []).params.oorResult ≠ .wrap ∧ inRange64 9223372036854775807 ∧ inRange64 4095 ∧
    inRange64 0 ∧ reducePreOk (ofInts 0 9223372036854775807 0 0 0) = true := by
  unfold inRange64
  decide
/-- MultAnswersFiveSteps and the statements with `multDuty`: both ends of R120's bound. -/
theorem test_hyp_mult : multDuty (ofInts 4503599627370495 0 0 0 (-4503599627370495)) one ∧
    ¬ multDuty (ofInts 4503599627370496 0 0 0 0) one ∧ ¬ multDuty (ofInts (-4503599627370496) 0 0 0 0) one := by
  simp only [← multPreOk_iff]
  decide
/-- ReservedCodesAnswerIllegalOp names its twelve codes. -/
theorem test_hyp_reserved_member : Instr.opF one ten ∈ [Instr.op4 one ten, .op5 one ten, .op6 one ten, .op7 one ten,
    .op8 one ten, .op9 one ten, .opA one ten, .opB one ten, .opC one ten, .opD one ten, .opE one ten, .opF one ten] := by
  decide
/-- FailedPreconditionDraws: an instruction of each operation whose precondition fails. -/
theorem test_hyp_draws : (at' drawing [] []).params.oorResult = .arbitrary ∧
    (∀ i ∈ [Instr.add (ofInts 9223372036854775807 0 0 0 0) one, .sub FE.zero (ofInts (-9223372036854775808) 0 0 0 0),
      .reduce (ofInts 9223372036854775807 9223372036854775807 0 0 0) one, .mult (ofInts 4503599627370496 0 0 0 0) one],
      ¬ reservedCode i ∧ preOk i = false) := by
  unfold reservedCode
  decide
/-- ResponseDependsOnRequestOnly: two states that share only their parameters. -/
theorem test_hyp_history : (at' checked [⟨resp 1, true⟩] []).acceptEnabled ∧ (at' checked [] []).acceptEnabled ∧
    (at' checked [⟨resp 1, true⟩] []).params = (at' checked [] []).params ∧
    (at' checked [] []).params.oorResult = .wrap ∧ preOk (.add one ten) = true :=
  ⟨enabled_of (by decide), enabled_of (by decide), rfl, rfl, by decide⟩
/-- AtMostOneStatusBit: `exec` answers a next state. -/
theorem test_hyp_exec_next : ∃ t, exec (.op9 one ten) (at' checked [] []) = .next t ∧
    ∃ t, exec (.add one ten) (at' checked [] []) = .next t :=
  ⟨_, rfl, _, rfl⟩

/-! #### Channels -/

def addReq : Request := ⟨0, one, ten⟩
/-- A running state with two entries in flight, so Q is full, the first one done. -/
def full : State := at' Params.default [⟨resp 1, true⟩, ⟨resp 2, false⟩] []
/-- A running state with one done entry. -/
def half : State := at' Params.default [⟨resp 1, true⟩] []

/-- StepRunsDecodedRequest: nothing waits, the same request waits, a table word, a full word. -/
theorem test_hyp_step_runs :
    (at' Params.default [] [.accept addReq]).moves = .accept addReq :: [] ∧ (at' Params.default [] []).waiting = none ∧
    { half with waiting := some addReq }.waiting = some addReq ∧ decodeTableWord 8 1 = some (.sub FE.zero FE.zero) ∧
    decodeTableWord 644 0 = some (.add FE.zero FE.zero) := by
  decide +kernel
/-- EdgeAcceptsWhenReadyAndValid: each clause, with |Q| = DEPTH - 1 and |Q| = DEPTH. -/
theorem test_hyp_edge_accepts : half.running ∧ full.running ∧ half.q.length < half.params.depth ∧
    full.params.depth ≤ full.q.length ∧ ((Edge.mk false true addReq false true).rspReady = false ∧ (at' Params.default [⟨resp 1, false⟩] []).rspValid = false) ∧
    (Edge.mk false true addReq false true).offer = some addReq ∧ (Edge.mk false false addReq false true).reqValid = false ∧
    (Edge.mk false true addReq false false).willing = false :=
  ⟨⟨rfl, rfl⟩, ⟨rfl, rfl⟩, by decide, by decide, ⟨rfl, rfl⟩, rfl, rfl, rfl⟩
/-- AcceptanceEnabledExactly: a state for each clause. -/
theorem test_hyp_acceptance : half.acceptEnabled ∧ State.powerOn.sawReset = false ∧
    (half.assertReset.sawReset = true ∧ half.assertReset.rst = true) ∧ (full.running ∧ full.params.depth ≤ full.q.length) :=
  ⟨enabled_of (by decide), rfl, ⟨rfl, rfl⟩, ⟨rfl, rfl⟩, by decide⟩
/-- FinishMarksOldestUnfinished: with a finished entry before the one that is marked. -/
theorem test_hyp_finish : { full with moves := [.finish] }.running ∧
    full.q = [⟨resp 1, true⟩] ++ ⟨resp 2, false⟩ :: [] ∧ ∀ x ∈ [Entry.mk (resp 1) true], x.done = true :=
  ⟨⟨rfl, rfl⟩, rfl, by decide⟩
/-- TakeObservesOldestResponse. -/
theorem test_hyp_take : { full with moves := [.take] }.moves = .take :: [] ∧ full.running ∧
    full.q = ⟨resp 1, true⟩ :: [⟨resp 2, false⟩] := ⟨rfl, ⟨rfl, rfl⟩, rfl⟩
/-- DisabledStepsAreRefused: a state for each clause. -/
theorem test_hyp_disabled : half.assertReset.rst = true ∧ half.rst = false ∧ (∀ e ∈ half.q, e.done = true) ∧
    (at' Params.default [⟨resp 1, false⟩] []).rspPort = none ∧ State.reset.rspPort = none := by decide
/-- ResetAnyTimeThenRelease: before the first reset, while running, and while reset is asserted. -/
theorem test_hyp_reset_release : { State.powerOn with moves := [.reset] }.moves = .reset :: [] ∧
    { full with moves := [.reset] }.moves = .reset :: [] ∧
    ({ full.assertReset with moves := [.release] }.moves = .release :: [] ∧ full.assertReset.sawReset = true ∧
      full.assertReset.rst = true) := ⟨rfl, rfl, rfl, rfl, rfl⟩
/-- ResetEdgeEmptiesQueue: with a request that waits and is still offered, and with none. -/
theorem test_hyp_reset_edge : (Edge.mk true true addReq true true).rst = true ∧
    { full with waiting := some addReq }.waiting = (Edge.mk true true addReq true true).offer ∧ full.waiting = none := ⟨rfl, rfl, rfl⟩
/-- EdgeTakesAndAcceptsTogether: |Q| = DEPTH - 1 and |Q| = DEPTH. -/
theorem test_hyp_edge_both : half.running ∧ half.q = ⟨resp 1, true⟩ :: [] ∧ half.q.length < half.params.depth ∧
    full.q = ⟨resp 1, true⟩ :: [⟨resp 2, false⟩] ∧ full.params.depth ≤ full.q.length ∧
    (busyEdge addReq).rst = false ∧ (busyEdge addReq).reqValid = true ∧ (busyEdge addReq).rspReady = true ∧
    (busyEdge addReq).willing = true := ⟨⟨rfl, rfl⟩, rfl, by decide, rfl, by decide, rfl, rfl, rfl, rfl⟩
/-- WaitingResponseIsHeld: a step under each of its three outcomes. -/
theorem test_hyp_held : full.rspPort = some (resp 1) ∧
    (∃ t, step { full with moves := [.finish] } = .next t) ∧ (∃ t, step { full with moves := [.take] } = .next t) ∧
    (∃ t, step { full with moves := [.reset] } = .next t) := ⟨by decide, ⟨_, rfl⟩, ⟨_, rfl⟩, ⟨_, rfl⟩⟩
/-- ChangedRequestIsRefused: a withdrawn and a changed request. -/
theorem test_hyp_changed : { half with waiting := some addReq }.waiting = some addReq ∧
    (Edge.mk false false addReq false true).reqValid = false ∧ (Edge.mk false true ⟨1, one, ten⟩ false true).req ≠ addReq := by
  decide
/-- NothingRunsBeforeFirstReset: a step that idles and one that resets. -/
theorem test_hyp_power_on : State.powerOn.sawReset = false ∧ (∃ t, step State.powerOn = .next t) ∧
    ∃ t, step { State.powerOn with moves := [.reset] } = .next t := ⟨rfl, ⟨_, rfl⟩, ⟨_, rfl⟩⟩
/-- NoPayloadWhileNotValid: an empty queue and an unfinished oldest entry. -/
theorem test_hyp_no_payload : State.reset.rspValid = false ∧ (at' Params.default [⟨resp 1, false⟩] []).rspValid = false := by
  decide
/-- EveryEdgeIsUntimedSteps: an edge that takes and accepts. -/
theorem test_hyp_edge_next : ∃ t, edgeMove (busyEdge addReq) half = .next t := ⟨_, rfl⟩
/-- EveryUntimedStepIsAnEdge: Accept, Take, Reset and Release, with nothing waiting and with a request that waits. -/
theorem test_hyp_move_next : (∃ t, runMove (.accept addReq) { half with waiting := some addReq } = .next t) ∧
    (∃ t, runMove .take { half with waiting := some addReq } = .next t) ∧ (∃ t, runMove (.accept addReq) half = .next t) ∧
    (∃ t, runMove .take half = .next t) ∧ (∃ t, runMove .reset half = .next t) ∧
    ∃ t, runMove .release half.assertReset = .next t := ⟨⟨_, rfl⟩, ⟨_, rfl⟩, ⟨_, rfl⟩, ⟨_, rfl⟩, ⟨_, rfl⟩, ⟨_, rfl⟩⟩

/-! #### Invariants -/

/-- A state with a history: one response taken, one in flight. -/
def running1 : State :=
  { at' checked [⟨⟨ofInts 11 22 33 44 55, 0b00⟩, true⟩] [.take] with
    accepted := [.opF one ten, .add one ten], taken := [⟨FE.zero, 0b01⟩] }

/-- StepKeepsInvariant, ResponsesReturnInRequestOrder: the invariant holds of a state with a history, which takes a step that takes a
response. -/
theorem test_hyp_inv : running1.Inv ∧ ∃ t, step running1 = .next t ∧ t.taken.length = 2 := by
  refine ⟨⟨by decide, by decide, by decide, by decide, ?_, by decide⟩, _, rfl, rfl⟩
  refine .cons ⟨?_, ?_, fun _ => by decide⟩ (.cons ⟨?_, ?_, fun _ => by decide⟩ .nil)
  all_goals try unfold reservedCode
  all_goals decide
/-- NoStepChangesParameters, ResponsesNeverChange: steps of each outcome; OnlyResetMovesChangeRst: both changes of R. -/
theorem test_hyp_steps : (∃ t, step (half.offerNext addReq) = .next t) ∧
    (∃ t, step { half with moves := [.reset] } = .next t ∧ t.rst ≠ half.rst) ∧
    ∃ t, step { half.assertReset with moves := [.release] } = .next t ∧ t.rst ≠ half.assertReset.rst :=
  ⟨⟨_, rfl⟩, ⟨_, rfl, by decide⟩, ⟨_, rfl, by decide⟩⟩
/-- EmptyAgendaFinishesEveryEntry: one entry is unfinished. -/
theorem test_hyp_empty_agenda : full.running ∧ full.moves = [] ∧ unfinished full.q = 1 := ⟨⟨rfl, rfl⟩, rfl, by decide⟩
/-- TakingEveryResponseDrainsQueue. -/
theorem test_hyp_drain : { half with moves := [.take] }.running ∧ (∀ e ∈ half.q, e.done = true) ∧
    { half with moves := [.take] }.moves = List.replicate half.q.length .take := ⟨⟨rfl, rfl⟩, by decide, rfl⟩

/-- One step of a live run from `half` in which the host keeps offering `addReq`: room stays, and the offer too. -/
theorem fair_room {s : State} (h : s.running ∧ s.params.depth = 2 ∧ s.q.length ≤ 1 ∧ (s.waiting = none ∨ s.waiting = some addReq)) :
    (fairNext (some addReq) s).running ∧ (fairNext (some addReq) s).params.depth = 2 ∧
    (fairNext (some addReq) s).q.length ≤ 1 ∧
    ((fairNext (some addReq) s).waiting = none ∨ (fairNext (some addReq) s).waiting = some addReq) := by
  obtain ⟨hr, hd, hl, hw⟩ := h
  obtain ⟨h1, h2, h3⟩ := fairNext_spec (want := some addReq) hr
  refine ⟨h2, ?_⟩
  cases hq : finishOldest s.q with
  | some q' =>
    obtain ⟨xs, e, ys, hx, -, -, hy⟩ := finishOldest_eq_some hq
    rw [h3 q' hq]
    refine ⟨hd, ?_, hw⟩
    rw [hx] at hl
    simpa [hy] using hl
  | none =>
    have ho : (openEdge (some addReq) s).offer = some addReq := by
      rw [openEdge_offer]
      rcases hw with hw | hw <;> rw [hw] <;> rfl
    have hv : (openEdge (some addReq) s).reqValid = true := by
      rcases hw with hw | hw <;> simp [openEdge, hw]
    rw [step_cons (m := fairMove (some addReq) s) (ms := []) rfl, fairMove, hq] at h1
    have h4 : edgeRun (openEdge (some addReq) s) { s with moves := [] } = .next (fairNext (some addReq) s) :=
      (edgeMove_of_running (s := { s with moves := [] }) hr rfl (by rw [ho]; exact hw)).symm.trans h1
    have hrdy : State.reqReady { s with moves := [] } (openEdge (some addReq) s).willing = true :=
      State.reqReady_iff.mpr ⟨rfl, hr, show s.q.length < s.params.depth by omega⟩
    rw [edgeRun_eq, if_pos (by rw [hv, hrdy]; rfl)] at h4
    obtain ⟨-, h5⟩ := exec_next h4
    have h6 : (afterTake (openEdge (some addReq) s) { s with moves := [] }).q = [] ∧
        (afterTake (openEdge (some addReq) s) { s with moves := [] }).params = s.params := by
      cases hs : s.q with
      | nil => simp [afterTake, State.rspValid]
      | cons e es =>
        have he := finishOldest_eq_none.mp hq e (by simp [hs])
        have : es = [] := by
          rw [hs] at hl
          simpa using hl
        simp [afterTake, State.rspValid, State.takeOldest, he, this, openEdge]
    rw [h5]
    simp [h6.1, h6.2, hd]
/-- TakingEveryResponseDrainsQueue, the infinite runs: one that meets every hypothesis of both clauses, with a response in flight. -/
theorem test_hyp_live_run : ∃ (σ : Nat → State) (μ : Nat → Move), IsRun σ μ ∧ BlockLive σ μ ∧ RunningFrom 0 σ ∧ HostTakes μ ∧
    ((σ 0).taken ++ (σ 0).q.map Entry.resp)[0]? = some (resp 1) ∧ infinitelyOften (cycleAt μ fun _ => True) ∧
    ∀ n e, 0 ≤ n → μ n = .edge e → e.offer = some addReq ∧ (σ n).q.length < (σ n).params.depth := by
  obtain ⟨σ, μ, h0, h1, h2, h3, h4, h5⟩ := exists_live_run (s := half) (some addReq) ⟨rfl, rfl⟩
  have hi : ∀ n, (σ n).running ∧ (σ n).params.depth = 2 ∧ (σ n).q.length ≤ 1 ∧
      ((σ n).waiting = none ∨ (σ n).waiting = some addReq) := by
    intro n
    induction n with
    | zero =>
      rw [h0]
      exact ⟨⟨rfl, rfl⟩, rfl, by decide, .inl rfl⟩
    | succ n ih =>
      rw [(h5 n).1]
      exact fair_room ih
  refine ⟨σ, μ, h1, h3, h2, h4, by rw [h0]; rfl, fun n => ?_, fun n e _ he => ?_⟩
  · obtain ⟨m, a, e, b, -⟩ := h4 n
    exact ⟨m, a, e, b, trivial⟩
  · obtain ⟨-, hd, hl, hw⟩ := hi n
    refine ⟨?_, by omega⟩
    rw [(h5 n).2, fairMove] at he
    split at he
    · cases he
    · injection he with he
      rw [← he, openEdge_offer]
      rcases hw with hw | hw <;> rw [hw] <;> rfl

/-! #### Arithmetic -/

/-- AddSubExactInsidePrecondition: limbs at both ends of [-2^62, 2^62 - 1]. -/
theorem test_hyp_add_sub_exact : limbsIn (-2 ^ 62) (2 ^ 62 - 1) (ofInts (-4611686018427387904) 4611686018427387903 0 0 0) ∧
    addPreOk one ten = true ∧ subPreOk one ten = true := by
  unfold limbsIn
  decide
/-- The largest normalised element: NormalisedSumsFeedMult, NormalisedIsReduceFixedPoint. -/
theorem test_hyp_normalised : normalised (ofInts 2251799813685247 0 0 0 2251799813685247) ∧ normalised FE.zero := by
  unfold normalised limbNormalised
  decide
/-- LanesAreIndependent: elements that agree in lane 4 only. -/
theorem test_hyp_lanes : limb one 4 = limb (ofInts 9 9 9 9 5) 4 ∧ limb ten 4 = limb (ofInts 9 9 9 9 50) 4 := by decide
/-- CarryStepLeavesFloorModulus: a limb that is neither the carrying one nor its successor. -/
theorem test_hyp_carry_step : (4 : Fin 5) ≠ (0 : Fin 4).castSucc ∧ (4 : Fin 5) ≠ (0 : Fin 4).succ := by decide
/-- ReduceOutputRanges: the last clause, at 0. -/
theorem test_hyp_ripple : 0 ≤ (rippled FE.zero).l4.value := by decide
/-- ReducePreconditionIsCarrySums: limbs 1 to 4 at both ends of the sufficient range, limb 0 at its least value. -/
theorem test_hyp_reduce_range : ∀ i : Fin 4,
    -2 ^ 63 + 4096 ≤ limbValue (ofInts (-9223372036854775808) 9223372036854771712 (-9223372036854771712) 0 0) i.succ ∧
    limbValue (ofInts (-9223372036854775808) 9223372036854771712 (-9223372036854771712) 0 0) i.succ ≤ 2 ^ 63 - 4096 := by
  decide
/-- OnePassMayNotNormalise: the last clause, at the least value p and at the greatest normalised element. -/
theorem test_hyp_noncanonical :
    (normalised (ofInts 2251799813685229 2251799813685247 2251799813685247 2251799813685247 2251799813685247) ∧
      Config.modulus ≤ val (ofInts 2251799813685229 2251799813685247 2251799813685247 2251799813685247 2251799813685247)) ∧
    normalised (ofInts 2251799813685247 2251799813685247 2251799813685247 2251799813685247 2251799813685247) ∧
      Config.modulus ≤ val (ofInts 2251799813685247 2251799813685247 2251799813685247 2251799813685247 2251799813685247) := by
  unfold normalised limbNormalised
  decide
/-- UnreadOperandsTakeNoPart: the last premise, inside and outside REDUCE's precondition. -/
theorem test_hyp_reduce_unread : reducePreOk one = true ∧ (at' drawing [] []).params.oorResult = .arbitrary ∧
    reducePreOk (ofInts 9223372036854775807 9223372036854775807 0 0 0) = false := by decide
/-- ReducePreservesFieldValue: V-RED-5, whose c4 is not 0. -/
theorem test_hyp_reduce_value : reducePreOk (ofInts 0 0 0 0 (-1)) = true ∧ carryOf (rippled (ofInts 0 0 0 0 (-1))).l4 = -1 := by
  decide
/-- MultDistributesOverAdd: the four hypotheses together. -/
theorem test_hyp_distributes : multDuty one ten ∧ multDuty one one ∧ addPreOk ten one = true ∧
    multDuty one (addDatapath ten one) := by
  simp only [← multPreOk_iff]
  decide
/-- Reduce2ExpandsToTwoRequests: an operand with a value. -/
theorem test_hyp_operand : Operand.eval [(['x'], one)] (.name ['x']) = some one := by decide

end Sys2Proof.Tests
end

section
/-! SUPPORT. Every step keeps the invariant of the state: the response of an acceptance is one that F gives (R65, R154), each
shared operation keeps `State.Inv`, and a step is one of these operations. -/

namespace Sys2Proof.Machine

variable {s t : State}

/-! ### The response of an acceptance is one of F (R64, R65, R153, R154) -/

/-- A reserved code has no precondition that could fail, and its C is zero whatever the operands. -/
theorem preOk_computed_of_reserved {i : Instr} (h : reservedCode i) : preOk i = true ∧ computed i = FE.zero := by
  cases i with
  | add | sub | reduce | mult => simp [reservedCode, Instr.opcode] at h
  | _ => exact ⟨rfl, rfl⟩

theorem admits_legal {i : Instr} (p : Params) (n : Nat) (h : ¬ reservedCode i) :
    Admits p i { c := legalResult p (preOk i) (computed i) n, st := legalStatus p (preOk i) } where
  illegal := by simp [h]
  violation := by simp
  value hv := by simp [legalResult, usesDraw_eq_false hv]

theorem admits_reserved {i : Instr} (p : Params) (h : reservedCode i) :
    Admits p i { c := FE.zero, st := reservedStatus } where
  illegal := by simp [h]
  violation := by simp [(preOk_computed_of_reserved h).1]
  value _ := (preOk_computed_of_reserved h).2.symm

theorem admits_responseOf (i : Instr) (s : State) : Admits s.params i (responseOf i s).1 := by
  unfold responseOf
  split
  · next h => exact admits_legal s.params s.draws (Nat.not_le.mpr h)
  · next h => exact admits_reserved s.params (Nat.not_lt.mp h)

/-! ### The shared operations keep the invariant -/

/-- The invariant does not speak of the draws, of the waiting request or of the agenda. -/
theorem State.Inv.withBookkeeping (h : s.Inv) (n : Nat) (w : Option Request) (ms : List Move) :
    State.Inv { s with draws := n, waiting := w, moves := ms } :=
  ⟨h.depth, h.bounded, h.emptyInReset, h.finishedFirst, h.inOrder, h.untouched⟩

theorem State.Inv.assertReset (h : s.Inv) : s.assertReset.Inv where
  depth := h.depth
  bounded := Nat.zero_le _
  emptyInReset _ := rfl
  finishedFirst := .nil
  inOrder := .nil
  untouched _ := ⟨rfl, rfl, rfl⟩

theorem State.Inv.releaseReset (h : s.Inv) : s.releaseReset.Inv where
  depth := h.depth
  bounded := h.bounded
  emptyInReset := nofun
  finishedFirst := h.finishedFirst
  inOrder := h.inOrder
  untouched := h.untouched

/-- Taking moves a response from Q to the observed ones, so the responses since reset stay as they are (R51). In reset and
before the first reset Q is empty, and nothing is taken. -/
theorem State.Inv.takeOldest (h : s.Inv) : s.takeOldest.Inv where
  depth := by simpa using h.depth
  bounded := by
    have hb := h.bounded
    simp only [State.takeOldest_q, List.length_tail, State.takeOldest_params]
    omega
  emptyInReset hr := by simp [h.emptyInReset (by simpa using hr)]
  finishedFirst := by simpa using h.finishedFirst.tail
  inOrder := by simpa only [State.takeOldest_responses, State.takeOldest_params, State.takeOldest_accepted] using h.inOrder
  untouched hs := by
    have hu := h.untouched (by simpa using hs)
    rwa [State.takeOldest_nil s hu.1]

theorem finishOldest_length {q q' : List Entry} (h : finishOldest q = some q') : q'.length = q.length := by
  obtain ⟨xs, e, ys, rfl, -, -, rfl⟩ := finishOldest_eq_some h
  simp

/-- Finishing keeps the entries finished oldest first: every entry before the one it marks is done (R44). -/
theorem finishOldest_finishedFirst {q q' : List Entry} (h : finishOldest q = some q')
    (hq : q.Pairwise (fun e f => f.done = true → e.done = true)) :
    q'.Pairwise (fun e f => f.done = true → e.done = true) := by
  obtain ⟨xs, e, ys, rfl, hxs, -, rfl⟩ := finishOldest_eq_some h
  obtain ⟨hx, hey, -⟩ := List.pairwise_append.mp hq
  have hys := (List.pairwise_cons.mp hey).2
  exact List.pairwise_append.mpr
    ⟨hx, List.pairwise_cons.mpr ⟨fun _ _ _ => rfl, hys⟩, fun x hx _ _ _ => hxs x hx⟩

theorem State.Inv.finish (h : s.Inv) (hrun : s.running) {q' : List Entry} (hq : finishOldest s.q = some q') :
    State.Inv { s with q := q' } where
  depth := h.depth
  bounded := (finishOldest_length hq).trans_le h.bounded
  emptyInReset hr := by simp [hrun.2] at hr
  finishedFirst := finishOldest_finishedFirst hq h.finishedFirst
  inOrder := by simpa only [finishOldest_resp hq] using h.inOrder
  untouched hs := by simp [hrun.1] at hs

/-- The new entry is the newest and unfinished, and its response is numbered like its request (R41, R51). -/
theorem State.Inv.afterAccept {i : Instr} {r : Response} (h : s.Inv) (he : s.acceptEnabled) (hr : Admits s.params i r) :
    (s.afterAccept i r).Inv where
  depth := h.depth
  bounded := by simpa using he.2
  emptyInReset hrst := by simp [he.1.2] at hrst
  finishedFirst := by simpa [List.pairwise_append] using h.finishedFirst
  inOrder := by
    have hnew := List.rel_append h.inOrder (List.Forall₂.cons hr .nil)
    simpa using hnew
  untouched hs := by simp [he.1.1] at hs

/-! ### Requests, edges and steps keep the invariant -/

theorem exec_keeps_inv {i : Instr} (h : s.Inv) (hx : exec i s = .next t) : t.Inv := by
  obtain ⟨he, rfl⟩ := exec_next hx
  exact (h.afterAccept he (admits_responseOf i s)).withBookkeeping _ _ _

theorem State.Inv.clearWaiting (h : s.Inv) : s.clearWaiting.Inv := h.withBookkeeping _ _ _

theorem State.Inv.afterTake (h : s.Inv) (e : Edge) : (afterTake e s).Inv := by
  unfold Machine.afterTake
  split
  · exact h.takeOldest
  · exact h

theorem edgeRun_keeps_inv {e : Edge} (h : s.Inv) (hx : edgeRun e s = .next t) : t.Inv := by
  rw [edgeRun_eq] at hx
  split at hx
  · exact exec_keeps_inv (h.afterTake e).clearWaiting hx
  · cases hx
    exact (h.afterTake e).withBookkeeping _ _ _

theorem edgeMove_keeps_inv {e : Edge} (h : s.Inv) (hx : edgeMove e s = .next t) : t.Inv := by
  obtain ⟨-, ⟨-, rfl⟩ | ⟨-, -, -, -, rfl⟩ | ⟨-, -, -, rfl⟩ | ⟨-, -, hrun⟩⟩ := edgeMove_next hx
  · exact h.assertReset.withBookkeeping _ _ _
  · exact h
  · exact h.releaseReset.withBookkeeping _ _ _
  · exact edgeRun_keeps_inv h hrun

theorem runMove_keeps_inv {m : Move} (h : s.Inv) (hx : runMove m s = .next t) : t.Inv := by
  cases m with
  | accept r => exact exec_keeps_inv h.clearWaiting (acceptMove_next hx).2
  | finish =>
    obtain ⟨hrun, q', hq, rfl⟩ := finishStep_next hx
    exact h.finish hrun hq
  | take =>
    obtain ⟨-, -, rfl⟩ := takeStep_next hx
    exact h.takeOldest
  | reset =>
    cases hx
    exact h.assertReset
  | release =>
    obtain ⟨-, -, rfl⟩ := releaseStep_next hx
    exact h.releaseReset
  | edge e => exact edgeMove_keeps_inv h hx

theorem blockMove_keeps_inv (h : s.Inv) (hx : blockMove s = .next t) : t.Inv := by
  obtain rfl | ⟨hrun, q', hq, rfl⟩ := blockMove_next hx
  · exact h
  · exact h.finish hrun hq

/-- Settles O33: a step is the block's own move or the head of the agenda, and each keeps the invariant. -/
theorem stepKeepsInvariant : Obligations.StepKeepsInvariant := by
  intro s t h hx
  cases hm : s.moves with
  | nil => exact blockMove_keeps_inv h (step_nil hm ▸ hx)
  | cons m ms => exact runMove_keeps_inv (h.withBookkeeping _ _ ms) (step_cons hm ▸ hx)

end Sys2Proof.Machine
end

section
/-! SUPPORT. The state of the block: what a response depends on (R20), that no step changes the build parameters (R27), and what
the state after reset and the state at power-on meet (R31, R182, R183). -/

namespace Sys2Proof.Machine

variable {s t : State}

/-! ### What the response of an acceptance depends on (R20, R154) -/

/-- ST depends on the state only through the parameters. -/
theorem responseOf_st_congr (i : Instr) (hp : s.params = t.params) : (responseOf i s).1.st = (responseOf i t).1.st := by
  unfold responseOf
  rw [hp]
  split <;> rfl

/-- A reserved code draws nothing: its precondition cannot fail (R153). -/
theorem responseOf_draws (i : Instr) (s : State) : (responseOf i s).2 = (usesDraw s.params (preOk i)).toNat := by
  unfold responseOf
  split
  · rfl
  · next h => simp [usesDraw_eq_false (.inr (preOk_computed_of_reserved (Nat.not_lt.mp h)).1)]

/-- C is the computed value on both sides, unless R154 makes it a draw. -/
theorem responseOf_congr_of_noDraw (i : Instr) (hp : s.params = t.params)
    (hv : s.params.oorResult = .wrap ∨ preOk i = true) : (responseOf i s).1 = (responseOf i t).1 := by
  have hc := (admits_responseOf i s).value hv
  have hc' := (admits_responseOf i t).value (hp ▸ hv)
  exact congrArg₂ Response.mk (hc.trans hc'.symm) (responseOf_st_congr i hp)

/-- Settles O16: an acceptance answers `responseOf`, which reads nothing of the state but the parameters and, where R154 makes
C a draw, the number of the draw. -/
theorem responseDependsOnRequestOnly : Obligations.ResponseDependsOnRequestOnly := by
  intro i s t hs ht hp
  have hn : (responseOf i t).2 = (responseOf i s).2 := by rw [responseOf_draws, responseOf_draws, hp]
  refine ⟨_, _, (responseOf i s).2, exec_of_enabled i hs, hn ▸ exec_of_enabled i ht, responseOf_st_congr i hp, fun hv => ?_⟩
  exact ⟨responseOf_congr_of_noDraw i hp hv, by rw [responseOf_draws, usesDraw_eq_false hv]; rfl⟩

/-! ### No step changes the build parameters (R27) -/

theorem exec_keeps_params {i : Instr} (hx : exec i s = .next t) : t.params = s.params := by
  obtain ⟨-, rfl⟩ := exec_next hx
  rfl

@[simp] theorem afterTake_params (e : Edge) (s : State) : (afterTake e s).params = s.params := by
  unfold afterTake
  split
  · exact s.takeOldest_params
  · rfl

theorem edgeRun_keeps_params {e : Edge} (hx : edgeRun e s = .next t) : t.params = s.params := by
  rw [edgeRun_eq] at hx
  split at hx
  · simpa using exec_keeps_params hx
  · cases hx
    exact afterTake_params e s

theorem edgeMove_keeps_params {e : Edge} (hx : edgeMove e s = .next t) : t.params = s.params := by
  obtain ⟨-, ⟨-, rfl⟩ | ⟨-, -, -, -, rfl⟩ | ⟨-, -, -, rfl⟩ | ⟨-, -, hrun⟩⟩ := edgeMove_next hx
  · rfl
  · rfl
  · rfl
  · exact edgeRun_keeps_params hrun

theorem runMove_keeps_params {m : Move} (hx : runMove m s = .next t) : t.params = s.params := by
  cases m with
  | accept r => exact exec_keeps_params (s := s.clearWaiting) (acceptMove_next hx).2
  | finish =>
    obtain ⟨-, q', -, rfl⟩ := finishStep_next hx
    rfl
  | take =>
    obtain ⟨-, -, rfl⟩ := takeStep_next hx
    exact s.takeOldest_params
  | reset =>
    cases hx
    rfl
  | release =>
    obtain ⟨-, -, rfl⟩ := releaseStep_next hx
    rfl
  | edge e => exact edgeMove_keeps_params hx

theorem blockMove_keeps_params (hx : blockMove s = .next t) : t.params = s.params := by
  obtain rfl | ⟨-, q', -, rfl⟩ := blockMove_next hx <;> rfl

/-- Settles O36: a step is the block's own move or the head of the agenda, and neither writes the parameters. -/
theorem noStepChangesParameters : Obligations.NoStepChangesParameters := by
  intro s t hx
  cases hm : s.moves with
  | nil => exact blockMove_keeps_params (step_nil hm ▸ hx)
  | cons m ms => exact runMove_keeps_params (s := { s with moves := ms }) (step_cons hm ▸ hx)

/-! ### The payload ports, and the states after reset and at power-on (R31, R32, R182, R183) -/

theorem State.rspPort_of_not_valid (h : s.rspValid = false) : s.rspPort = none := by
  simp [State.rspPort, h]

/-- Settles O30: the payload ports are driven only while `rsp_valid` = 1. -/
theorem noPayloadWhileNotValid : Obligations.NoPayloadWhileNotValid :=
  fun _ => State.rspPort_of_not_valid

/-- A block with nothing in flight and no record since reset meets the invariant, whether it has been reset or not. -/
theorem State.Inv.of_empty (hd : 1 ≤ s.params.depth) (hq : s.q = []) (ha : s.accepted = []) (ht : s.taken = []) : s.Inv where
  depth := hd
  bounded := by simp [hq]
  emptyInReset _ := hq
  finishedFirst := by simp [hq]
  inOrder := by simp [hq, ha, ht]
  untouched _ := ⟨hq, ha, ht⟩

/-- Settles O34: both states are empty, and DEPTH is 2 in both. -/
theorem resetMeetsInvariant : Obligations.ResetMeetsInvariant :=
  ⟨.of_empty (by decide) rfl rfl rfl, .of_empty (by decide) rfl rfl rfl⟩

/-- Settles O39: with Q empty there is no response on the port and room for a request. -/
theorem resetIsReadyForWork : Obligations.ResetIsReadyForWork :=
  ⟨rfl, rfl, State.rspPort_of_not_valid rfl, rfl, rfl, rfl, State.canAccept_iff.mp rfl⟩

end Sys2Proof.Machine
end

section
/-! SUPPORT. The request and response channels (20_memory.md R41 to R45): what each untimed step and each rising edge does where
it is enabled, and how it is refused elsewhere. -/

namespace Sys2Proof.Machine

variable {s t : State}

/-! ### Finish, Take and Release: one equation per case (R44) -/

theorem finishStep_of_some (hrun : s.running) {q' : List Entry} (hq : finishOldest s.q = some q') :
    finishStep s = .next { s with q := q' } := by
  simp [finishStep, hrun.1, hrun.2, hq]

theorem finishStep_of_none (hrun : s.running) (hq : finishOldest s.q = none) : finishStep s = .refused .nothingToFinish := by
  simp [finishStep, hrun.1, hrun.2, hq]

theorem finishStep_in_reset (hs : s.sawReset = true) (hr : s.rst = true) : finishStep s = .refused .resetAsserted := by
  simp [finishStep, hs, hr]

theorem takeStep_of_valid (hrun : s.running) (hv : s.rspValid = true) : takeStep s = .next s.takeOldest := by
  simp [takeStep, hrun.1, hrun.2, hv]

theorem takeStep_of_not_valid (hrun : s.running) (hv : s.rspValid = false) : takeStep s = .refused .noResponse := by
  simp [takeStep, hrun.1, hrun.2, hv]

theorem takeStep_in_reset (hs : s.sawReset = true) (hr : s.rst = true) : takeStep s = .refused .resetAsserted := by
  simp [takeStep, hs, hr]

theorem releaseStep_in_reset (hs : s.sawReset = true) (hr : s.rst = true) : releaseStep s = .next s.releaseReset := by
  simp [releaseStep, hs, hr]

theorem releaseStep_outside_reset (hrun : s.running) : releaseStep s = .refused .notInReset := by
  simp [releaseStep, hrun.1, hrun.2]

/-! ### The response port (R42) -/

theorem State.rspValid_cons {r : Response} {es : List Entry} (hq : s.q = ⟨r, true⟩ :: es) : s.rspValid = true :=
  State.rspValid_iff.mpr ⟨_, es, hq, rfl⟩

/-- The port carries `r` exactly when `r` is the response of the oldest entry, which is done, in a block that has been reset. -/
theorem State.rspPort_eq_some {r : Response} : s.rspPort = some r ↔ s.sawReset = true ∧ ∃ es, s.q = ⟨r, true⟩ :: es := by
  unfold State.rspPort
  split
  · next h =>
    obtain ⟨hs, hv⟩ := Bool.and_eq_true_iff.mp h
    obtain ⟨⟨r', d⟩, es, hq, rfl⟩ := State.rspValid_iff.mp hv
    simp [hs, hq]
  · next h =>
    refine ⟨nofun, fun ⟨hs, es, hq⟩ => absurd (Bool.and_eq_true_iff.mpr ⟨hs, ?_⟩) h⟩
    exact State.rspValid_cons hq

theorem State.rspValid_of_rspPort_none (hs : s.sawReset = true) (hp : s.rspPort = none) : s.rspValid = false := by
  rw [Bool.eq_false_iff]
  intro hv
  obtain ⟨⟨r, d⟩, es, hq, rfl⟩ := State.rspValid_iff.mp hv
  simp [State.rspPort_eq_some.mpr ⟨hs, es, hq⟩] at hp

/-! ### Acceptance (R41, R44, R62, R185) -/

theorem acceptMove_of_allowed {r : Request} (hw : s.waiting = none ∨ s.waiting = some r) :
    acceptMove r s = exec r.decode s.clearWaiting :=
  if_pos (State.offerAllowed_iff.mpr hw)

/-- The decoder of the opcode table reads the request that the numbering lays out. -/
theorem decode_tableRequest {nbits w : Nat} {i : Instr} (h : decodeTableWord nbits w = some i) :
    (tableRequest nbits w).decode = i := by
  unfold decodeTableWord decode at h
  split at h
  · next hn =>
    rw [tableRequest, if_pos hn]
    split at h
    · cases h
    · split at h
      · cases h
      · exact Option.some.inj h
  · exact Option.some.inj h

/-- Settles O18: an acceptance on a channel where nothing else waits is `exec`, and `withFetchWord` puts one next. -/
theorem stepRunsDecodedRequest : Obligations.StepRunsDecodedRequest := by
  refine ⟨fun s r ms hm hw => ?_, fun s nbits w i hi => ?_⟩
  · exact (step_cons hm).trans (acceptMove_of_allowed (s := { s with moves := ms }) hw)
  · rw [← decode_tableRequest hi]
    exact step_offerNext _

/-- Settles O20: an instruction is an acceptance, and `acceptEntry` asks for the reset, for `rst` = 0 and for room, in this order. -/
theorem acceptanceEnabledExactly : Obligations.AcceptanceEnabledExactly := by
  intro i s
  refine ⟨fun he => ⟨_, exec_of_enabled i he⟩, fun hs => ?_, fun hs hr => ?_, fun hrun hfull => ?_⟩
  · simp [exec_eq, acceptEntry, hs]
  · simp [exec_eq, acceptEntry, hs, hr]
  · simp [exec_eq, acceptEntry, hrun.1, hrun.2, State.hasRoom, Nat.not_lt.mpr hfull]

/-! ### The untimed steps as steps of the agenda -/

/-- Settles O21: the oldest unfinished entry is the first one behind entries that are all done. -/
theorem finishMarksOldestUnfinished : Obligations.FinishMarksOldestUnfinished := by
  intro s ms xs ys r hm hrun hq hxs
  rw [step_cons hm]
  refine finishStep_of_some (s := { s with moves := ms }) hrun ?_
  exact (congrArg finishOldest hq).trans (finishOldest_split hxs rfl)

/-- Settles O22: the response taken is the one on the port. -/
theorem takeObservesOldestResponse : Obligations.TakeObservesOldestResponse := by
  intro s ms r es hm hrun hq
  refine ⟨State.rspPort_eq_some.mpr ⟨hrun.1, es, hq⟩, ?_⟩
  calc step s = .next (State.takeOldest { s with moves := ms }) :=
        (step_cons hm).trans (takeStep_of_valid (s := { s with moves := ms }) hrun (State.rspValid_cons hq))
    _ = _ := congrArg _ (State.takeOldest_cons _ hq)

/-- Settles O23: each refusal is the equation of the step for that case. -/
theorem disabledStepsAreRefused : Obligations.DisabledStepsAreRefused := by
  intro s ms hs
  refine ⟨fun hm hr => ?_, fun hm hr hdone => ?_, fun hm hr => ?_, fun hm hr hport => ?_, fun hm hr => ?_⟩ <;>
    rw [step_cons hm]
  · exact finishStep_in_reset (s := { s with moves := ms }) hs hr
  · exact finishStep_of_none (s := { s with moves := ms }) ⟨hs, hr⟩ (finishOldest_eq_none.mpr hdone)
  · exact takeStep_in_reset (s := { s with moves := ms }) hs hr
  · exact takeStep_of_not_valid (s := { s with moves := ms }) ⟨hs, hr⟩ (State.rspValid_of_rspPort_none hs hport)
  · exact releaseStep_outside_reset (s := { s with moves := ms }) ⟨hs, hr⟩

/-- Settles O24: Reset has no condition, and Release asks for `rst` = 1. -/
theorem resetAnyTimeThenRelease : Obligations.ResetAnyTimeThenRelease :=
  fun s ms => ⟨fun hm => step_cons hm, fun hm hs hr =>
    (step_cons hm).trans (releaseStep_in_reset (s := { s with moves := ms }) hs hr)⟩

/-! ### Rising edges in operation (R41, R45) -/

theorem step_edge_of_running {e : Edge} {ms : List Move} (hm : s.moves = .edge e :: ms) (hrun : s.running)
    (h0 : e.rst = false) (hw : s.waiting = none ∨ s.waiting = e.offer) : step s = edgeRun e { s with moves := ms } :=
  (step_cons hm).trans (edgeMove_of_running (s := { s with moves := ms }) hrun h0 hw)

theorem edgeRun_accepts {e : Edge} (hv : e.reqValid = true) (hw : e.willing = true) (he : s.acceptEnabled) :
    edgeRun e s = exec e.req.decode (afterTake e s).clearWaiting := by
  rw [edgeRun_eq, hv, State.reqReady_iff.mpr ⟨hw, he⟩]
  rfl

theorem edgeRun_waits {e : Edge} (h : e.reqValid = false ∨ e.willing = false ∨ s.params.depth ≤ s.q.length) :
    edgeRun e s = .next { afterTake e s with waiting := e.offer } := by
  rw [edgeRun_eq, if_neg]
  intro hc
  obtain ⟨hv, hready⟩ := Bool.and_eq_true_iff.mp hc
  obtain ⟨hw, -, hroom⟩ := State.reqReady_iff.mp hready
  simp only [hv, hw, Bool.true_eq_false, false_or] at h
  omega

theorem afterTake_of_no_take {e : Edge} (h : e.rspReady = false ∨ s.rspValid = false) : afterTake e s = s :=
  if_neg (by rcases h with h | h <;> simp [h])

theorem afterTake_of_take {e : Edge} (hr : e.rspReady = true) (hv : s.rspValid = true) : afterTake e s = s.takeOldest :=
  if_pos (Bool.and_eq_true_iff.mpr ⟨hr, hv⟩)

theorem afterTake_cons {e : Edge} {r : Response} {es : List Entry} (hr : e.rspReady = true) (hq : s.q = ⟨r, true⟩ :: es) :
    afterTake e s = { s with q := es, taken := s.taken ++ [r] } :=
  (afterTake_of_take hr (State.rspValid_cons hq)).trans (State.takeOldest_cons _ hq)

/-- Settles O19: at an edge without a take the request meets the state as it stands. -/
theorem edgeAcceptsWhenReadyAndValid : Obligations.EdgeAcceptsWhenReadyAndValid := by
  intro s e ms hm hrun h0 hno hw
  have hstep := step_edge_of_running hm hrun h0 hw
  have hkeep : afterTake e { s with moves := ms } = { s with moves := ms } := afterTake_of_no_take hno
  refine ⟨fun hv hwill hroom => ?_, fun hwait => ?_⟩
  · have hexec : step s = exec e.req.decode { s with waiting := none, moves := ms } := by
      rw [hstep, edgeRun_accepts (s := { s with moves := ms }) hv hwill ⟨hrun, hroom⟩, hkeep]
      rfl
    exact ⟨hexec, _, _, hexec.trans (exec_of_enabled _ ⟨hrun, hroom⟩), rfl⟩
  · rw [hstep, edgeRun_waits (s := { s with moves := ms }) hwait, hkeep]

/-- Settles O26: the take leaves the shorter queue, and the acceptance, judged on the queue before the edge, appends to it. -/
theorem edgeTakesAndAcceptsTogether : Obligations.EdgeTakesAndAcceptsTogether := by
  intro s e ms r es hm hrun h0 hrdy hw hq
  have hstep := step_edge_of_running hm hrun h0 hw
  have htake : afterTake e { s with moves := ms } = { s with q := es, taken := s.taken ++ [r], moves := ms } :=
    afterTake_cons (s := { s with moves := ms }) hrdy hq
  refine ⟨fun hv hwill hroom => ?_, fun hwait => ?_⟩
  · have hen : State.acceptEnabled { s with q := es, taken := s.taken ++ [r], waiting := none, moves := ms } := by
      refine ⟨hrun, lt_trans ?_ hroom⟩
      simp [hq]
    refine ⟨_, _, admits_responseOf e.req.decode s, Eq.trans ?_ (exec_of_enabled e.req.decode hen)⟩
    rw [hstep, edgeRun_accepts (s := { s with moves := ms }) hv hwill ⟨hrun, hroom⟩, htake]
    rfl
  · rw [hstep, edgeRun_waits (s := { s with moves := ms }) hwait, htake]

end Sys2Proof.Machine
end

section
/-! SUPPORT. The rising edge and the untimed steps of 20_memory.md R44 agree: an edge is a short sequence of untimed steps, and every
untimed step of the host and the environment is an edge. -/

namespace Sys2Proof.Machine

variable {s t : State}

/-! ### An edge as untimed steps -/

theorem runMoves_cons_of_next {m : Move} (h : runMove m s = .next t) (ms : List Move) :
    runMoves (m :: ms) s = runMoves ms t := by
  simp [runMoves, andThen, h]

theorem State.takeOldest_clearWaiting (s : State) : s.takeOldest.clearWaiting = s.clearWaiting.takeOldest := by
  unfold State.takeOldest
  split <;> simp_all [State.clearWaiting]

theorem exec_keeps_waiting {i : Instr} (hx : exec i s = .next t) : t.waiting = s.waiting := by
  obtain ⟨-, rfl⟩ := exec_next hx
  rfl

theorem State.clearWaiting_of_none (h : s.waiting = none) : s.clearWaiting = s := by
  rw [State.clearWaiting, ← h]

/-- What an edge takes is no move or the move Take, whatever the moves that follow. -/
theorem afterTake_moves (e : Edge) (hrun : s.running) :
    ∃ ms ∈ [[], [Move.take]], ∀ rest, runMoves (ms ++ rest) s.clearWaiting = runMoves rest (afterTake e s).clearWaiting := by
  unfold afterTake
  split
  · next h =>
    have hv : s.clearWaiting.rspValid = true := (Bool.and_eq_true_iff.mp h).2
    have htake : runMove .take s.clearWaiting = .next s.takeOldest.clearWaiting :=
      s.takeOldest_clearWaiting ▸ takeStep_of_valid (s := s.clearWaiting) hrun hv
    exact ⟨[.take], by simp, runMoves_cons_of_next htake⟩
  · exact ⟨[], by simp, fun _ => rfl⟩

/-- The acceptance of an edge is the move Accept, on a channel where nothing else waits. -/
theorem runMoves_accept {r : Request} (hx : exec r.decode s.clearWaiting = .next t) :
    runMoves [.accept r] s.clearWaiting = .next t.clearWaiting := by
  have haccept : runMove (.accept r) s.clearWaiting = .next t :=
    (acceptMove_of_allowed (s := s.clearWaiting) (.inl rfl)).trans hx
  rw [State.clearWaiting_of_none (exec_keeps_waiting hx)]
  exact runMoves_cons_of_next haccept []

/-- Settles O31: by the four things an edge can do; in operation it is a take or none, followed by an acceptance or none. -/
theorem everyEdgeIsUntimedSteps : Obligations.EveryEdgeIsUntimedSteps := by
  intro e s t hx
  obtain ⟨-, ⟨-, rfl⟩ | ⟨-, -, -, -, rfl⟩ | ⟨-, hs, hr, rfl⟩ | ⟨-, hrun, hedge⟩⟩ := edgeMove_next hx
  · exact ⟨[.reset], by simp, rfl⟩
  · exact ⟨[], by simp, rfl⟩
  · have hrelease : runMove .release s.clearWaiting = .next s.releaseReset.clearWaiting :=
      releaseStep_in_reset (s := s.clearWaiting) hs hr
    exact ⟨[.release], by simp, runMoves_cons_of_next hrelease []⟩
  · obtain ⟨ms, hms, htake⟩ := afterTake_moves e hrun
    rw [edgeRun_eq] at hedge
    split at hedge
    · refine ⟨ms ++ [.accept e.req], ?_, (htake _).trans (runMoves_accept hedge)⟩
      rcases List.mem_pair.mp hms with rfl | rfl <;> simp
    · cases hedge
      refine ⟨ms ++ [], ?_, htake []⟩
      rcases List.mem_pair.mp hms with rfl | rfl <;> simp

/-! ### An untimed step as an edge -/

/-- The rising edge at which the host goes on offering the request that waits, if one does (R185), and the block accepts none. -/
def holdEdge (rst rspReady : Bool) (s : State) : Edge :=
  { rst := rst, reqValid := s.waiting.isSome, req := s.waiting.getD ⟨0, FE.zero, FE.zero⟩, rspReady := rspReady, willing := false }

@[simp] theorem holdEdge_offer (rst rspReady : Bool) (s : State) : (holdEdge rst rspReady s).offer = s.waiting := by
  unfold holdEdge Edge.offer
  cases s.waiting <;> rfl

theorem holdEdge_allowed (rst rspReady : Bool) (s : State) : s.offerAllowed (holdEdge rst rspReady s).offer = true :=
  State.offerAllowed_iff.mpr (.inr (by simp))

theorem edgeMove_reset (s : State) : edgeMove (holdEdge true false s) s = .next s.assertReset := by
  rw [edgeMove, holdEdge_allowed, holdEdge_offer]
  rfl

theorem edgeMove_release (hs : s.sawReset = true) (hr : s.rst = true) :
    edgeMove (holdEdge false false s) s = .next s.releaseReset := by
  rw [edgeMove, holdEdge_allowed, holdEdge_offer, hs, hr]
  rfl

theorem edgeMove_take (hrun : s.running) (hv : s.rspValid = true) :
    edgeMove (holdEdge false true s) s = .next s.takeOldest := by
  rw [edgeMove_of_running hrun rfl (.inr (by simp)), edgeRun_waits (.inr (.inl rfl)), afterTake_of_take rfl hv,
    holdEdge_offer, ← s.takeOldest_waiting]

/-- The rising edge at which a request is offered to a willing block, and no response is taken. -/
def acceptEdge (r : Request) : Edge := { rst := false, reqValid := true, req := r, rspReady := false, willing := true }

theorem edgeMove_accept {r : Request} (hw : s.waiting = none ∨ s.waiting = some r) (he : s.acceptEnabled) :
    edgeMove (acceptEdge r) s = exec r.decode s.clearWaiting := by
  rw [edgeMove_of_running (e := acceptEdge r) he.1 rfl hw, edgeRun_accepts rfl rfl he, afterTake_of_no_take (.inl rfl)]
  rfl

/-- Settles O32: Accept is the edge that offers the request, and the other steps are edges that keep the waiting offer. -/
theorem everyUntimedStepIsAnEdge : Obligations.EveryUntimedStepIsAnEdge := by
  intro m s t hfinish hedge hx
  cases m with
  | accept r =>
    obtain ⟨hw, hexec⟩ := acceptMove_next hx
    obtain ⟨he, -⟩ := exec_next hexec
    exact ⟨_, (edgeMove_accept (State.offerAllowed_iff.mp hw) he).trans hexec⟩
  | finish => exact absurd rfl hfinish
  | take =>
    obtain ⟨hrun, hv, rfl⟩ := takeStep_next hx
    exact ⟨_, edgeMove_take hrun hv⟩
  | reset => exact ⟨_, (edgeMove_reset s).trans hx⟩
  | release =>
    obtain ⟨hs, hr, rfl⟩ := releaseStep_next hx
    exact ⟨_, edgeMove_release hs hr⟩
  | edge e => exact absurd rfl (hedge e)

end Sys2Proof.Machine
end

section
/-! SUPPORT. What one step can do to the block, said once (`StepEffect`), and the safety statements of 20_memory.md that follow:
which steps change R (R44), that responses in flight stay as they are (R50), that a waiting response is held (R42), and that
responses come in request order (R51). -/

namespace Sys2Proof.Machine

variable {s t u : State} {ms : List Move}

/-! ### The moves that assert reset, release it and take a response -/

/-- The next move asserts reset: Reset, or an edge with `rst` = 1 (R180). -/
def State.resetsNext (s : State) (ms : List Move) : Prop :=
  s.moves = .reset :: ms ∨ ∃ e, s.moves = .edge e :: ms ∧ e.rst = true

/-- The next move can release reset: Release, or an edge with `rst` = 0. -/
def State.releasesNext (s : State) (ms : List Move) : Prop :=
  s.moves = .release :: ms ∨ ∃ e, s.moves = .edge e :: ms ∧ e.rst = false

/-- The next move takes a response that is on the port: Take, or an edge outside reset with `rsp_ready` = 1 (R42). -/
def State.takesNext (s : State) (ms : List Move) : Prop :=
  s.moves = .take :: ms ∨ ∃ e, s.moves = .edge e :: ms ∧ e.rst = false ∧ e.rspReady = true

/-! ### The effect of one step -/

/-- The state between the take of a step, if it takes, and its acceptance, if it accepts (R45). `ms` are the moves that follow. -/
inductive AfterTaking (s : State) (ms : List Move) : State → Prop
  | untaken : AfterTaking s ms s
  | taken {r : Response} {es : List Entry} (hrun : s.running) (hm : s.takesNext ms) (hq : s.q = ⟨r, true⟩ :: es) :
      AfterTaking s ms { s with q := es, taken := s.taken ++ [r] }

/-- What one step can do to the block. The waiting offer, the agenda and the draws of an acceptance are left free. -/
inductive StepEffect (s : State) : State → Prop
  | finish {q' : List Entry} (hrun : s.running) (hq : finishOldest s.q = some q') (ms : List Move) :
      StepEffect s { s with q := q', moves := ms }
  | reset {ms : List Move} (hm : s.resetsNext ms) (w : Option Request) :
      StepEffect s { s.assertReset with waiting := w, moves := ms }
  | release {ms : List Move} (hs : s.sawReset = true) (hr : s.rst = true) (hm : s.releasesNext ms) (w : Option Request) :
      StepEffect s { s.releaseReset with waiting := w, moves := ms }
  | noAccept {ms : List Move} {u : State} (hu : AfterTaking s ms u) (w : Option Request) :
      StepEffect s { u with waiting := w, moves := ms }
  | accept {ms : List Move} {u : State} {i : Instr} {r : Response} (hu : AfterTaking s ms u) (he : s.acceptEnabled)
      (hr : Admits s.params i r) (n : Nat) (w : Option Request) :
      StepEffect s { u.afterAccept i r with draws := n, waiting := w, moves := ms }

/-- The take of an edge, whose agenda is already the shorter one. -/
theorem afterTake_afterTaking {e : Edge} (hm : s.moves = .edge e :: ms) (h0 : e.rst = false) (hrun : s.running) :
    ∃ u, AfterTaking s ms u ∧ afterTake e { s with moves := ms } = { u with moves := ms } := by
  by_cases hc : e.rspReady = true ∧ s.rspValid = true
  · obtain ⟨hrdy, hv⟩ := hc
    obtain ⟨⟨r, d⟩, es, hq, rfl⟩ := State.rspValid_iff.mp hv
    exact ⟨_, .taken hrun (.inr ⟨e, hm, h0, hrdy⟩) hq, afterTake_cons (s := { s with moves := ms }) hrdy hq⟩
  · have hno : e.rspReady = false ∨ s.rspValid = false := by
      rwa [not_and_or, Bool.not_eq_true, Bool.not_eq_true] at hc
    exact ⟨s, .untaken, afterTake_of_no_take (s := { s with moves := ms }) hno⟩

/-- An acceptance after a take or none, on a state that differs from `u` in the bookkeeping only. -/
theorem exec_effect {i : Instr} {w : Option Request} (hu : AfterTaking s ms u) (he : s.acceptEnabled)
    (hx : exec i { u with waiting := w, moves := ms } = .next t) : StepEffect s t := by
  obtain ⟨-, rfl⟩ := exec_next hx
  have hp : u.params = s.params := by cases hu <;> rfl
  exact .accept hu he (hp ▸ admits_responseOf i { u with waiting := w, moves := ms }) _ _

theorem edgeRun_effect {e : Edge} (hm : s.moves = .edge e :: ms) (h0 : e.rst = false) (hrun : s.running)
    (hx : edgeRun e { s with moves := ms } = .next t) : StepEffect s t := by
  obtain ⟨u, hu, htake⟩ := afterTake_afterTaking hm h0 hrun
  rw [edgeRun_eq, htake] at hx
  split at hx
  · next hacc =>
    have he : s.acceptEnabled := (State.reqReady_iff.mp (Bool.and_eq_true_iff.mp hacc).2).2
    exact exec_effect hu he hx
  · cases hx
    exact .noAccept hu _

theorem runMove_effect {m : Move} (hm : s.moves = m :: ms) (hx : runMove m { s with moves := ms } = .next t) :
    StepEffect s t := by
  cases m with
  | accept r =>
    have hexec := (acceptMove_next hx).2
    exact exec_effect .untaken (exec_next hexec).1 hexec
  | finish =>
    obtain ⟨hrun, q', hq, rfl⟩ := finishStep_next hx
    exact .finish (s := s) hrun hq ms
  | take =>
    obtain ⟨hrun, hv, rfl⟩ := takeStep_next hx
    obtain ⟨⟨r, d⟩, es, hq, rfl⟩ := State.rspValid_iff.mp hv
    rw [State.takeOldest_cons _ hq]
    exact .noAccept (.taken (s := s) hrun (.inl hm) hq) s.waiting
  | reset =>
    cases hx
    exact .reset (.inl hm) s.waiting
  | release =>
    obtain ⟨hs, hr, rfl⟩ := releaseStep_next hx
    exact .release (s := s) hs hr (.inl hm) s.waiting
  | edge e =>
    obtain ⟨-, ⟨h1, rfl⟩ | ⟨-, -, -, -, rfl⟩ | ⟨h0, hs, hr, rfl⟩ | ⟨h0, hrun, hedge⟩⟩ := edgeMove_next hx
    · exact .reset (.inr ⟨e, hm, h1⟩) e.offer
    · exact .noAccept .untaken s.waiting
    · exact .release (s := s) hs hr (.inr ⟨e, hm, h0⟩) e.offer
    · exact edgeRun_effect hm h0 hrun hedge

theorem step_effect (hx : step s = .next t) : StepEffect s t := by
  cases hm : s.moves with
  | nil =>
    obtain rfl | ⟨hrun, q', hq, rfl⟩ := blockMove_next (step_nil hm ▸ hx)
    · exact .noAccept .untaken t.waiting
    · exact .finish hrun hq s.moves
  | cons m ms => exact runMove_effect hm (step_cons hm ▸ hx)

/-! ### R changes by Reset and Release only (R44, R180, R182) -/

theorem AfterTaking.rst_eq (hu : AfterTaking s ms u) : u.rst = s.rst := by
  cases hu <;> rfl

/-- Settles O37: of the effects of a step only Reset and Release write R. -/
theorem onlyResetMovesChangeRst : Obligations.OnlyResetMovesChangeRst := by
  intro s t hx hne
  cases step_effect hx with
  | finish => exact absurd rfl hne
  | reset hm => exact ⟨_, .inl ⟨rfl, hm⟩⟩
  | release _ _ hm => exact ⟨_, .inr ⟨rfl, hm⟩⟩
  | noAccept hu => exact absurd hu.rst_eq hne
  | accept hu => exact absurd hu.rst_eq hne

/-! ### A response in flight never changes (R50, R51, R181) -/

/-- The responses since reset, taken and in flight, in the order of R51. -/
def State.responses (s : State) : List Response := s.taken ++ s.q.map Entry.resp

/-- A take moves the oldest response from the ones in flight to the ones taken. -/
theorem AfterTaking.responses_eq (hu : AfterTaking s ms u) : u.responses = s.responses := by
  cases hu with
  | untaken => rfl
  | taken _ _ hq => simp [State.responses, hq]

theorem AfterTaking.accepted_eq (hu : AfterTaking s ms u) : u.accepted = s.accepted := by
  cases hu <;> rfl

theorem State.responses_afterAccept (u : State) (i : Instr) (r : Response) :
    (u.afterAccept i r).responses = u.responses ++ [r] := by
  simp [State.responses]

/-- Settles O38: Finish and Take keep the list, an acceptance appends to it, and a reset drops it. -/
theorem responsesNeverChange : Obligations.ResponsesNeverChange := by
  intro s t hx
  cases step_effect hx with
  | finish _ hq => exact .inl ⟨congrArg (s.taken ++ ·) (finishOldest_resp hq), rfl⟩
  | reset => exact .inr (.inr ⟨rfl, rfl, rfl⟩)
  | release => exact .inl ⟨rfl, rfl⟩
  | noAccept hu => exact .inl ⟨hu.responses_eq, hu.accepted_eq⟩
  | @accept _ u i r hu =>
    refine .inr (.inl ⟨r, i, ?_, congrArg (· ++ [i]) hu.accepted_eq⟩)
    exact (u.responses_afterAccept i r).trans (congrArg (· ++ [r]) hu.responses_eq)

/-! ### A waiting response is held (R42) -/

/-- Finish leaves an oldest entry that is done where it stands. -/
theorem finishOldest_cons_done {r : Response} {es q' : List Entry} (h : finishOldest (⟨r, true⟩ :: es) = some q') :
    ∃ es', q' = ⟨r, true⟩ :: es' := by
  obtain ⟨es', -, rfl⟩ := Option.map_eq_some_iff.mp h
  exact ⟨es', rfl⟩

/-- Between take and acceptance a response on the port still stands there, or it is the one that was taken. -/
theorem AfterTaking.rspPort_held {r : Response} (hu : AfterTaking s ms u) (hp : s.rspPort = some r) :
    u.rspPort = some r ∨ u.taken = s.taken ++ [r] ∧ u.q = s.q.tail ∧ s.takesNext ms := by
  cases hu with
  | untaken => exact .inl hp
  | taken _ hm hq =>
    obtain ⟨-, es, hq'⟩ := State.rspPort_eq_some.mp hp
    cases hq.symm.trans hq'
    exact .inr ⟨rfl, congrArg List.tail hq.symm, hm⟩

theorem State.rspPort_afterAccept {i : Instr} {r r' : Response} (hp : u.rspPort = some r) :
    (u.afterAccept i r').rspPort = some r := by
  obtain ⟨hs, es, hq⟩ := State.rspPort_eq_some.mp hp
  exact State.rspPort_eq_some.mpr ⟨hs, _, congrArg (· ++ _) hq⟩

/-- Over a step a response on the port stays there, or is taken, or is dropped by a reset. -/
theorem StepEffect.rspPort_held {r : Response} (h : StepEffect s t) (hp : s.rspPort = some r) :
    t.rspPort = some r ∨ (t.taken = s.taken ++ [r] ∧ s.q.tail <+: t.q ∧ ∃ ms, s.takesNext ms) ∨
      (t.rst = true ∧ t.q = [] ∧ ∃ ms, s.resetsNext ms) := by
  cases h with
  | finish _ hf =>
    obtain ⟨hs, es, hq⟩ := State.rspPort_eq_some.mp hp
    obtain ⟨es', rfl⟩ := finishOldest_cons_done (hq ▸ hf)
    exact .inl (State.rspPort_eq_some.mpr ⟨hs, es', rfl⟩)
  | reset hm => exact .inr (.inr ⟨rfl, rfl, _, hm⟩)
  | release => exact .inl hp
  | noAccept hu =>
    obtain hheld | ⟨htaken, htail, hm⟩ := hu.rspPort_held hp
    · exact .inl hheld
    · exact .inr (.inl ⟨htaken, htail ▸ List.prefix_rfl, _, hm⟩)
  | @accept _ u i r' hu =>
    obtain hheld | ⟨htaken, htail, hm⟩ := hu.rspPort_held hp
    · exact .inl (State.rspPort_afterAccept (i := i) (r' := r') hheld)
    · exact .inr (.inl ⟨htaken, htail ▸ List.prefix_append _ _, _, hm⟩)

/-- Settles O27: a response on the port is the oldest one, and only a take or a reset removes it. -/
theorem waitingResponseIsHeld : Obligations.WaitingResponseIsHeld := by
  refine ⟨fun s => State.rspValid_iff, fun s e es hs hq hd => ?_, fun s t r hp hx => ?_⟩
  · obtain ⟨r, d⟩ := e
    cases hd
    exact State.rspPort_eq_some.mpr ⟨hs, es, hq⟩
  · simpa only [State.takesNext, State.resetsNext] using (step_effect hx).rspPort_held hp

/-! ### Responses return in request order (R51) -/

/-- What is taken was on the port. -/
theorem AfterTaking.taken_eq (hu : AfterTaking s ms u) :
    ∃ rs : List Response, u.taken = s.taken ++ rs ∧ rs.length ≤ 1 ∧ ∀ r ∈ rs, s.rspPort = some r := by
  cases hu with
  | untaken => exact ⟨[], by simp⟩
  | @taken r es hrun _ hq =>
    have hport : s.rspPort = some r := State.rspPort_eq_some.mpr ⟨hrun.1, es, hq⟩
    exact ⟨[r], by simp [hport]⟩

/-- Outside a reset both records of the host grow at the end, by at most one each. -/
theorem StepEffect.records_grow (h : StepEffect s t) :
    (t.rst = true ∧ t.q = [] ∧ t.taken = [] ∧ t.accepted = []) ∨
    ∃ (rs : List Response) (is : List Instr), t.taken = s.taken ++ rs ∧ rs.length ≤ 1 ∧ t.accepted = s.accepted ++ is ∧
      is.length ≤ 1 ∧ ∀ r ∈ rs, s.rspPort = some r := by
  cases h with
  | finish => exact .inr ⟨[], [], by simp⟩
  | reset => exact .inl ⟨rfl, rfl, rfl, rfl⟩
  | release => exact .inr ⟨[], [], by simp⟩
  | noAccept hu =>
    obtain ⟨rs, htaken, hlen, hport⟩ := hu.taken_eq
    exact .inr ⟨rs, [], htaken, hlen, by simpa using hu.accepted_eq, by simp, hport⟩
  | @accept _ u i r hu =>
    obtain ⟨rs, htaken, hlen, hport⟩ := hu.taken_eq
    exact .inr ⟨rs, [i], htaken, hlen, congrArg (· ++ [i]) hu.accepted_eq, by simp, hport⟩

/-- The invariant answers the k-th request with the k-th response. -/
theorem State.Inv.admits_nth {k : Nat} {r : Response} (h : s.Inv) (hk : s.responses[k]? = some r) :
    ∃ i, s.accepted[k]? = some i ∧ Admits s.params i r := by
  obtain ⟨hlt, rfl⟩ := List.getElem?_eq_some_iff.mp hk
  have hlt' : k < s.accepted.length := h.inOrder.length_eq ▸ hlt
  exact ⟨_, List.getElem?_eq_getElem hlt', h.inOrder.get hlt' hlt⟩

/-- The response on the port is the next one to be taken. -/
theorem State.responses_of_rspPort {r : Response} (hp : s.rspPort = some r) : s.responses[s.taken.length]? = some r := by
  obtain ⟨-, es, hq⟩ := State.rspPort_eq_some.mp hp
  simp [State.responses, hq]

theorem State.Inv.accepted_length (h : s.Inv) : s.accepted.length = s.taken.length + s.q.length := by
  simpa using h.inOrder.length_eq

/-- Settles O35: what is taken was on the port, and the invariant numbers it like its request and counts both. -/
theorem responsesReturnInRequestOrder : Obligations.ResponsesReturnInRequestOrder := by
  intro s t h hx
  refine (step_effect hx).records_grow.imp_right ?_
  rintro ⟨rs, is, htaken, hrs, haccepted, his, hport⟩
  refine ⟨rs, is, htaken, hrs, haccepted, his, fun r hr => ⟨hport r hr, ?_⟩, ?_⟩
  · exact h.admits_nth (State.responses_of_rspPort (hport r hr))
  · exact (stepKeepsInvariant s t h hx).accepted_length

end Sys2Proof.Machine
end

section
/-! SUPPORT. Progress (20_memory.md R52, R56): the block left alone finishes every entry, a host that takes as many responses as are in
flight empties Q, and what a run that meets the fairness assumptions gives its host. -/

namespace Sys2Proof.Machine

/-! ### The block left alone -/

section Alone

variable {s : State} {q q' : List Entry}

/-- The entry with its response computed. -/
def Entry.finished (e : Entry) : Entry := { e with done := true }

theorem unfinished_eq_zero : unfinished q = 0 ↔ ∀ e ∈ q, e.done = true := by
  simp [unfinished]

/-- Finish lowers the number of unfinished entries by one. -/
theorem unfinished_of_finishOldest (h : finishOldest q = some q') : unfinished q = unfinished q' + 1 := by
  obtain ⟨xs, e, ys, rfl, -, he, rfl⟩ := finishOldest_eq_some h
  simp [unfinished, he, Nat.add_assoc]

theorem map_finished_of_finishOldest (h : finishOldest q = some q') : q'.map Entry.finished = q.map Entry.finished := by
  obtain ⟨xs, e, ys, rfl, -, -, rfl⟩ := finishOldest_eq_some h
  simp [Entry.finished]

theorem Entry.finished_of_done {e : Entry} (h : e.done = true) : e.finished = e := by
  rw [Entry.finished, ← h]

theorem map_finished_of_done (h : ∀ e ∈ q, e.done = true) : q.map Entry.finished = q :=
  (List.map_congr_left fun e he => Entry.finished_of_done (h e he)).trans (List.map_id q)

theorem step_finishes (hrun : s.running) (hm : s.moves = []) (hq : finishOldest s.q = some q') :
    step s = .next { s with q := q' } := by
  simp [step_nil hm, blockMove, hrun.1, hrun.2, hq]

theorem run_finishes (n : Nat) (hrun : s.running) (hm : s.moves = []) (hn : unfinished s.q = n) :
    Host.Core.run Sys2Proof.core n s = .next { s with q := s.q.map Entry.finished } := by
  induction n generalizing s with
  | zero =>
    rw [map_finished_of_done (unfinished_eq_zero.mp hn)]
    rfl
  | succ n ih =>
    cases hq : finishOldest s.q with
    | none =>
      have hdone := unfinished_eq_zero.mpr (finishOldest_eq_none.mp hq)
      omega
    | some q' =>
      have hn' : unfinished q' = n := by
        have hlower := unfinished_of_finishOldest hq
        omega
      rw [core_run_succ (step_finishes hrun hm hq), ih (s := { s with q := q' }) hrun hm hn',
        map_finished_of_finishOldest hq]

/-- Settles O40, by induction on the number of unfinished entries: a step of the block alone lowers it by one. -/
theorem emptyAgendaFinishesEveryEntry : Obligations.EmptyAgendaFinishesEveryEntry :=
  fun _ hrun hm => run_finishes _ hrun hm rfl

/-- As many Take moves as there are entries, each done, hand the responses over in order. -/
theorem run_takes (hrun : s.running) (hq : s.q = q) (hdone : ∀ e ∈ q, e.done = true)
    (hm : s.moves = List.replicate q.length .take) :
    Host.Core.run Sys2Proof.core q.length s =
      .next { s with q := [], taken := s.taken ++ q.map Entry.resp, moves := [] } := by
  induction q generalizing s with
  | nil =>
    have hs : s = { s with q := [], taken := s.taken ++ [], moves := [] } := by
      rw [List.append_nil, ← hq, ← show s.moves = [] from hm]
    exact congrArg Host.Outcome.next hs
  | cons e es ih =>
    obtain ⟨r, d⟩ := e
    obtain rfl : d = true := hdone ⟨r, d⟩ List.mem_cons_self
    have hstep := (takeObservesOldestResponse s _ r es hm hrun hq).2
    have hdone' : ∀ e ∈ es, e.done = true := fun e he => hdone e (List.mem_cons_of_mem _ he)
    have hrest := ih (s := { s with q := es, taken := s.taken ++ [r], moves := .replicate es.length .take }) hrun rfl hdone' rfl
    refine (core_run_succ hstep es.length).trans (hrest.trans ?_)
    simp

end Alone

/-! ### Infinite runs in operation -/

section Runs

variable {σ : Nat → State} {μ : Nat → Move} {n0 n m : Nat} {r : Response}

/-- A list that only grows from a position on. -/
theorem isPrefix_of_le {α : Type} {f : Nat → List α} (hf : ∀ n, n0 ≤ n → f n <+: f (n + 1)) (hn : n0 ≤ n) (hm : n ≤ m) :
    f n <+: f m := by
  induction m, hm using Nat.le_induction with
  | base => exact List.prefix_rfl
  | succ m hnm ih => exact ih.trans (hf m (by omega))

theorem not_reset (hR : RunningFrom n0 σ) (hn : n0 ≤ n) : (σ (n + 1)).rst ≠ true := by
  simp [(hR (n + 1) (by omega)).2]

theorem run_taken_mono (hσ : IsRun σ μ) (hR : RunningFrom n0 σ) (hn : n0 ≤ n) (hm : n ≤ m) :
    (σ n).taken <+: (σ m).taken := by
  refine isPrefix_of_le (f := fun n => (σ n).taken) (fun n hn => ?_) hn hm
  obtain ⟨hrst, -⟩ | ⟨rs, -, htaken, -⟩ := (step_effect (hσ n)).records_grow
  · exact absurd hrst (not_reset hR hn)
  · exact ⟨rs, htaken.symm⟩

theorem run_responses_mono (hσ : IsRun σ μ) (hR : RunningFrom n0 σ) (hn : n0 ≤ n) (hm : n ≤ m) :
    (σ n).responses <+: (σ m).responses := by
  refine isPrefix_of_le (f := fun n => (σ n).responses) (fun n hn => ?_) hn hm
  obtain ⟨hkeep, -⟩ | ⟨r, -, hgrow, -⟩ | ⟨hrst, -⟩ := responsesNeverChange _ _ (hσ n)
  · exact ⟨[], (List.append_nil _).trans hkeep.symm⟩
  · exact ⟨[r], hgrow.symm⟩
  · exact absurd hrst (not_reset hR hn)

/-- In operation an edge of the run is `edgeRun`. -/
theorem run_edge {e : Edge} (hσ : IsRun σ μ) (hR : RunningFrom n0 σ) (hn : n0 ≤ n) (he : μ n = .edge e) :
    edgeRun e { σ n with moves := [] } = .next (σ (n + 1)) := by
  obtain ⟨hs, hr⟩ := hR n hn
  have hx : edgeMove e { σ n with moves := [] } = .next (σ (n + 1)) := by
    rw [← hσ n, he]
    rfl
  obtain ⟨-, ⟨-, ht⟩ | ⟨-, hs', -⟩ | ⟨-, -, hr', -⟩ | ⟨-, -, hedge⟩⟩ := edgeMove_next hx
  · exact absurd (congrArg State.rst ht) (not_reset hR hn)
  · exact absurd (hs.symm.trans hs') (by decide)
  · exact absurd (hr.symm.trans hr') (by decide)
  · exact hedge

/-! ### Every response in flight is taken (R56, second item) -/

theorem edgeRun_takes {s t : State} {e : Edge} (hrdy : e.rspReady = true) (hp : s.rspPort = some r)
    (hx : edgeRun e s = .next t) : t.taken = s.taken ++ [r] := by
  obtain ⟨-, es, hq⟩ := State.rspPort_eq_some.mp hp
  rw [edgeRun_eq, afterTake_cons hrdy hq] at hx
  split at hx
  · obtain ⟨-, rfl⟩ := exec_next hx
    rfl
  · cases hx
    rfl

/-- A response on the port stays there until it is taken. -/
theorem run_rspPort_held (hσ : IsRun σ μ) (hR : RunningFrom n0 σ) (hn : n0 ≤ n) (hp : (σ n).rspPort = some r) (hm : n ≤ m) :
    (σ m).rspPort = some r ∨ (σ n).taken.length < (σ m).taken.length := by
  induction m, hm using Nat.le_induction with
  | base => exact .inl hp
  | succ m hnm ih =>
    obtain hp' | hlt := ih
    · obtain hheld | ⟨htaken, -⟩ | ⟨hrst, -⟩ := (step_effect (hσ m)).rspPort_held hp'
      · exact .inl hheld
      · have hle := Nat.lt_succ_of_le (run_taken_mono hσ hR hn hnm).length_le
        exact .inr (by simpa [htaken] using hle)
      · exact absurd hrst (not_reset hR (hn.trans hnm))
    · exact .inr (hlt.trans_le (run_taken_mono hσ hR (hn.trans hnm) m.le_succ).length_le)

theorem run_takes_port (hσ : IsRun σ μ) (hR : RunningFrom n0 σ) (hhost : HostTakes μ) (hn : n0 ≤ n)
    (hp : (σ n).rspPort = some r) : ∃ m, n ≤ m ∧ (σ n).taken.length < (σ m).taken.length := by
  obtain ⟨m, hm, e, he, hrdy⟩ := hhost n
  obtain hp' | hlt := run_rspPort_held hσ hR hn hp hm
  · have htaken := edgeRun_takes (s := { σ m with moves := [] }) hrdy hp' (run_edge hσ hR (hn.trans hm) he)
    have hle := Nat.lt_succ_of_le (run_taken_mono hσ hR hn hm).length_le
    exact ⟨m + 1, by omega, by simpa [htaken] using hle⟩
  · exact ⟨m, hm, hlt⟩

/-- The oldest response in flight is finished at some position, and taken at a later one. -/
theorem run_takes_oldest (hσ : IsRun σ μ) (hR : RunningFrom n0 σ) (hfin : EveryEntryFinishes n0 σ) (hhost : HostTakes μ)
    (hn : n0 ≤ n) (hq : 0 < (σ n).q.length) : ∃ m, n ≤ m ∧ (σ n).taken.length < (σ m).taken.length := by
  obtain ⟨m, hm, hlt | ⟨⟨r, d⟩, hentry, rfl⟩⟩ := hfin n (σ n).taken.length hn (by omega)
  · exact ⟨m, hm, hlt⟩
  · have hle := (run_taken_mono hσ hR hn hm).length_le
    rw [Nat.sub_eq_zero_of_le hle, ← List.head?_eq_getElem?] at hentry
    obtain ⟨es, hes⟩ := List.head?_eq_some_iff.mp hentry
    have hp : (σ m).rspPort = some r := State.rspPort_eq_some.mpr ⟨(hR m (hn.trans hm)).1, es, hes⟩
    obtain ⟨m', hm', hlt⟩ := run_takes_port hσ hR hhost (hn.trans hm) hp
    exact ⟨m', hm.trans hm', hle.trans_lt hlt⟩

/-- As many responses as there are, taken and in flight, are taken at last: one more for each step of the induction. -/
theorem run_takes_count (hσ : IsRun σ μ) (hR : RunningFrom n0 σ) (hfin : EveryEntryFinishes n0 σ) (hhost : HostTakes μ)
    (hn : n0 ≤ n) (j : Nat) (hj : j ≤ (σ n).responses.length) : ∃ m, n ≤ m ∧ j ≤ (σ m).taken.length := by
  induction j with
  | zero => exact ⟨n, le_rfl, Nat.zero_le _⟩
  | succ j ih =>
    obtain ⟨m, hm, hjm⟩ := ih (by omega)
    by_cases hlt : j < (σ m).taken.length
    · exact ⟨m, hm, hlt⟩
    · have hq : 0 < (σ m).q.length := by
        have hle := (run_responses_mono hσ hR hn hm).length_le
        have hlen : (σ m).responses.length = (σ m).taken.length + (σ m).q.length := by simp [State.responses]
        omega
      obtain ⟨m', hm', hlt'⟩ := run_takes_oldest hσ hR hfin hhost (hn.trans hm) hq
      exact ⟨m', hm.trans hm', by omega⟩

theorem run_takes_every (hσ : IsRun σ μ) (hR : RunningFrom n0 σ) (hfin : EveryEntryFinishes n0 σ) (hhost : HostTakes μ)
    {k : Nat} (hn : n0 ≤ n) (hk : (σ n).responses[k]? = some r) : ∃ m, n ≤ m ∧ (σ m).taken[k]? = some r := by
  obtain ⟨hlt, rfl⟩ := List.getElem?_eq_some_iff.mp hk
  obtain ⟨m, hm, hkm⟩ := run_takes_count hσ hR hfin hhost hn (k + 1) hlt
  refine ⟨m, hm, ?_⟩
  calc (σ m).taken[k]? = (σ m).responses[k]? := (List.getElem?_append_left hkm).symm
    _ = some _ := List.prefix_iff_getElem?.mp (run_responses_mono hσ hR hn hm) k hlt

/-! ### A request kept on offer is accepted (R56, third item) -/

theorem Edge.offer_eq_some {e : Edge} {req : Request} : e.offer = some req ↔ e.reqValid = true ∧ e.req = req := by
  unfold Edge.offer
  split <;> simp_all

theorem afterTake_accepted (e : Edge) (s : State) : (afterTake e s).accepted = s.accepted := by
  unfold afterTake
  split
  · exact s.takeOldest_accepted
  · rfl

theorem edgeRun_accepted {s t : State} {e : Edge} {req : Request} (ho : e.offer = some req)
    (hrdy : s.reqReady e.willing = true) (hx : edgeRun e s = .next t) : t.accepted = s.accepted ++ [req.decode] := by
  obtain ⟨hv, rfl⟩ := Edge.offer_eq_some.mp ho
  obtain ⟨hw, he⟩ := State.reqReady_iff.mp hrdy
  rw [edgeRun_accepts hv hw he] at hx
  obtain ⟨-, rfl⟩ := exec_next hx
  exact congrArg (· ++ _) (afterTake_accepted e s)

theorem run_accepts {req : Request} (hσ : IsRun σ μ) (hR : RunningFrom n0 σ) (hready : ReadyWhileRoom σ μ)
    (hoffer : ∀ n e, n0 ≤ n → μ n = .edge e → e.offer = some req ∧ (σ n).q.length < (σ n).params.depth) :
    ∃ n, n0 ≤ n ∧ (σ (n + 1)).accepted = (σ n).accepted ++ [req.decode] := by
  have hroom : eventuallyAlways fun n => cycleAt μ (fun _ => True) n → (σ n).q.length < (σ n).params.depth :=
    ⟨n0, fun n hn ⟨e, he, _⟩ => (hoffer n e hn he).2⟩
  obtain ⟨n, hn, e, he, hrdy⟩ := hready hroom n0
  exact ⟨n, hn, edgeRun_accepted (s := { σ n with moves := [] }) (hoffer n e hn he).1 hrdy (run_edge hσ hR hn he)⟩

/-- A clock in which the host is ready infinitely often does not stop. -/
theorem HostTakes.cycles (h : HostTakes μ) : infinitelyOften (cycleAt μ fun _ => True) := fun n =>
  let ⟨m, hm, e, he, _⟩ := h n
  ⟨m, hm, e, he, trivial⟩

end Runs

/-- Settles O41: the bounded drain, R56's second item from its first, and the acceptance from its third. -/
theorem takingEveryResponseDrainsQueue : Obligations.TakingEveryResponseDrainsQueue := by
  refine ⟨fun s hrun => run_takes hrun rfl, fun σ μ n0 hσ hlive hR => ?_⟩
  refine ⟨fun hhost n k r hn hk => ?_, fun req hclock hoffer => ?_⟩
  · obtain ⟨hfin, -⟩ := hlive hhost.cycles n0 hR
    exact run_takes_every hσ hR hfin hhost hn hk
  · obtain ⟨-, hready⟩ := hlive hclock n0 hR
    exact run_accepts hσ hR hready hoffer

end Sys2Proof.Machine
end

section
/-! SUPPORT. The formats REQ and RSP and the decoder (30_encoding.md R60 to R67): the fields of both words, that decoding and encoding
undo each other, and which inputs are a request at all. -/

namespace Sys2Proof

open Machine

/-! ### The fields of the two words (R46, R60, R61) -/

theorem busLimb_toBus_eq_limb (a : FE) (i : Fin 5) : busLimb a.toBus i = limb a i :=
  (forall_limb (P := fun i => busLimb a.toBus i = limb a i)).mpr (busLimb_toBus a) i

/-- Limb i of the 320-bit field that begins at bit `start` of a word. -/
theorem busLimb_extractLsb' {n : Nat} (w : BitVec n) (start : Nat) (i : Fin 5) :
    busLimb (w.extractLsb' start 320) i = w.extractLsb' (start + 64 * i) 64 := by
  apply BitVec.eq_of_getLsbD_eq
  intro j hj
  have hbit : 64 * i.val + j < 320 := by omega
  simp [busLimb, hbit, Nat.add_assoc]

/-- If an element stands in the field that begins at bit `start`, its limb i stands at bit `start + 64·i`. -/
theorem extractLsb'_limb {n start : Nat} {w : BitVec n} {a : FE} (h : w.extractLsb' start 320 = a.toBus) (i : Fin 5) :
    w.extractLsb' (start + 64 * i) 64 = limb a i := by
  rw [← busLimb_extractLsb', h, busLimb_toBus_eq_limb]

/-- The two fields of a response word (R61). -/
theorem Response.word_fields (r : Response) :
    r.word.extractLsb' 320 2 = r.st ∧ r.word.extractLsb' 0 320 = r.c.toBus :=
  ⟨BitVec.extractLsb'_append_eq_left, BitVec.extractLsb'_append_eq_right⟩

theorem Response.ofWord_word (r : Response) : Response.ofWord r.word = r := by
  obtain ⟨hst, hc⟩ := Response.word_fields r
  simp [Response.ofWord, hst, hc, FE.ofBus_toBus]

/-- The three fields of a word, put together again, are the word: no bit is dropped. -/
theorem Request.word_ofWord (w : BitVec 644) : (Request.ofWord w).word = w := by
  simp only [Request.word, Request.ofWord, FE.toBus_ofBus]
  rw [BitVec.extractLsb'_append_extractLsb'_eq_extractLsb' (start₂ := 640) (by norm_num),
    BitVec.extractLsb'_append_extractLsb'_eq_extractLsb' (start₂ := 320) (by norm_num)]
  exact BitVec.extractLsb'_eq_self

/-- Settles O3: each limb is read off its 320-bit field, and the word gives the request back. -/
theorem requestWordLayout : Obligations.RequestWordLayout := by
  intro r
  obtain ⟨hop, hb, ha⟩ := Request.word_fields r
  have hbLimb (i : Fin 5) := extractLsb'_limb hb i
  have haLimb (i : Fin 5) : r.word.extractLsb' (64 * i.val) 64 = limb r.a i := by
    simpa only [Nat.zero_add] using extractLsb'_limb ha i
  exact ⟨hop, fun i => ⟨hbLimb i, congrArg BitVec.toInt (hbLimb i).symm⟩,
    fun i => ⟨haLimb i, congrArg BitVec.toInt (haLimb i).symm⟩, r.ofWord_word⟩

/-- Settles O4: as for the request word; a limb is the encoding of its own value. -/
theorem responseWordLayout : Obligations.ResponseWordLayout := by
  intro r
  obtain ⟨hst, hc⟩ := Response.word_fields r
  refine ⟨hst, fun i => ⟨?_, value_range _⟩, r.ofWord_word⟩
  calc r.word.extractLsb' (64 * i.val) 64 = limb r.c i := by
        simpa only [Nat.zero_add] using extractLsb'_limb hc i
    _ = BitVec.ofInt 64 (limbValue r.c i) := (s64_value _).symm

/-! ### The opcode map (R62, R63, R64) -/

/-- The payload of the instruction a code selects is that code with the operands verbatim, for each of the sixteen codes. -/
theorem Instr.request_ofOp (op : BitVec 4) (a b : FE) : (Instr.ofOp op a b).request = ⟨op, a, b⟩ := by
  obtain ⟨k, hk⟩ := op
  interval_cases k <;> rfl

theorem Request.request_decode (r : Request) : r.decode.request = r :=
  Instr.request_ofOp r.op r.a r.b

theorem reservedCode_ofOp {op : BitVec 4} (h : 4 ≤ op.toNat) (a b : FE) : reservedCode (Instr.ofOp op a b) := by
  have hop : (Instr.ofOp op a b).opcode = op := congrArg Request.op (Instr.request_ofOp op a b)
  rwa [reservedCode, hop]

/-- Settles O5: the four operations by evaluation, a reserved code by the payload of what it decodes to. -/
theorem opcodeMapReadsOpAlone : Obligations.OpcodeMapReadsOpAlone := by
  refine fun a b => ⟨rfl, rfl, rfl, rfl, fun op h => ?_⟩
  have hpayload := Request.request_decode ⟨op, a, b⟩
  exact ⟨reservedCode_ofOp h a b, congrArg Request.op hpayload, congrArg Request.a hpayload, congrArg Request.b hpayload⟩

/-! ### The decoder's check of the length, and the round trips (R60, R67) -/

theorem decode_of_length_ne {len w : Nat} (h : len ≠ 644) : decode len w = .error .wrongLength :=
  if_pos h

theorem decode_of_le {w : Nat} (h : 2 ^ 644 ≤ w) : decode 644 w = .error .beyondWord :=
  (if_neg (not_not_intro rfl)).trans (if_pos h)

theorem decode_of_lt {w : Nat} (h : w < 2 ^ 644) : decode 644 w = .ok (Request.ofWord (BitVec.ofNat 644 w)).decode :=
  (if_neg (not_not_intro rfl)).trans (if_neg (Nat.not_le.mpr h))

theorem decode_toNat (w : BitVec 644) : decode 644 w.toNat = .ok (Request.ofWord w).decode := by
  have hw : w.toNat < 2 ^ 644 := by omega
  rw [decode_of_lt hw, BitVec.ofNat_toNat, BitVec.setWidth_eq]

theorem decode_ofWord_encode (i : Instr) : (Request.ofWord (encode i)).decode = i := by
  rw [encode, Request.ofWord_word, Request.decode_request]

theorem encode_decode_ofWord (w : BitVec 644) : encode (Request.ofWord w).decode = w := by
  rw [encode, Request.request_decode, Request.word_ofWord]

theorem decode_encode (i : Instr) : decode 644 (encode i).toNat = .ok i := by
  rw [decode_toNat, decode_ofWord_encode]

/-- Settles O1: the word gives its request back, and the request its instruction. -/
theorem decodeInvertsEncode : Obligations.DecodeInvertsEncode :=
  fun i _ => ⟨decode_ofWord_encode i, decode_encode i⟩

/-- Settles O2: the instruction gives its request back, and the request its word. -/
theorem encodeInvertsDecode : Obligations.EncodeInvertsDecode :=
  fun w => ⟨encode_decode_ofWord w, decode_toNat w⟩

/-- Settles O6: one equation of the decoder for each of the three cases. -/
theorem onlyOneRequestLength : Obligations.OnlyOneRequestLength :=
  fun _ _ => ⟨decode_of_length_ne, decode_of_le, decode_of_lt⟩

theorem decode_of_encode_eq {i : Instr} {w : Nat} (h : (encode i).toNat = w) : decode 644 w = .ok i :=
  h ▸ decode_encode i

/-- Settles O7: each number is the word of its request, which decodes back to it. -/
theorem sampleWordsDecode : Obligations.SampleWordsDecode :=
  ⟨decode_of_encode_eq rfl, decode_of_encode_eq rfl, decode_of_encode_eq rfl, decode_of_encode_eq rfl,
    decode_of_encode_eq rfl⟩

end Sys2Proof
end

section
/-! SUPPORT. What a request answers by its code (30_encoding.md R64 to R66), and the expansion of the pseudo-instructions
(R68, R69). -/

namespace Sys2Proof.Machine

variable {s : State}

/-! ### Reserved codes and unread operands (R64, R65, R66, R151) -/

theorem responseOf_of_reserved {i : Instr} (h : reservedCode i) (s : State) :
    responseOf i s = (⟨FE.zero, reservedStatus⟩, 0) :=
  if_neg (Nat.not_lt.mpr h)

/-- A reserved code answers one and the same response, and draws nothing. -/
theorem exec_of_reserved {i : Instr} (h : reservedCode i) (he : s.acceptEnabled) :
    exec i s = .next (s.afterAccept i ⟨FE.zero, reservedStatus⟩) := by
  rw [exec_of_enabled i he, responseOf_of_reserved h]
  rfl

/-- REDUCE does not read B. -/
theorem responseOf_reduce_congr (a b b' : FE) (s : State) : responseOf (.reduce a b) s = responseOf (.reduce a b') s :=
  rfl

/-- Settles O12: each of the twelve instructions has a reserved code. -/
theorem reservedCodesAnswerIllegalOp : Obligations.ReservedCodesAnswerIllegalOp := by
  intro a b s he i hi
  have hres : reservedCode i := by
    fin_cases hi <;> simp [reservedCode, Instr.opcode]
  exact exec_of_reserved hres he

/-- Settles O14: an acceptance answers `responseOf`, which F gives. -/
theorem everyRequestAnswersF : Obligations.EveryRequestAnswersF :=
  fun i s he => ⟨_, _, admits_responseOf i s, exec_of_enabled i he⟩

/-- Settles O15: the response of REDUCE is the same for every B, and that of a reserved code for all operands. -/
theorem unreadOperandsTakeNoPart : Obligations.UnreadOperandsTakeNoPart := by
  intro s he
  refine ⟨fun a b b' => ?_, fun op a b a' b' hop => ?_⟩
  · have hsame := responseOf_reduce_congr a b b' s
    exact ⟨_, _, _, exec_of_enabled _ he, hsame ▸ exec_of_enabled (.reduce a b') he, rfl, fun _ => rfl⟩
  · exact ⟨_, exec_of_reserved (reservedCode_ofOp hop a b) he, exec_of_reserved (reservedCode_ofOp hop a' b') he⟩

/-! ### The pseudo-instructions (R69) -/

/-- A fresh name is longer than every name in use. -/
theorem length_lt_freshIdent {used : List Ident} {x : Ident} (h : x ∈ used) : x.length < (freshIdent used).length := by
  have hle : x.length ≤ (used.map List.length).sum := List.le_sum_of_mem (List.mem_map_of_mem h)
  simpa [freshIdent] using Nat.lt_succ_of_le hle

theorem freshIdent_notMem (used : List Ident) : freshIdent used ∉ used :=
  fun h => lt_irrefl _ (length_lt_freshIdent h)

/-- A REDUCE line issues REDUCE of its operand, with B written as zero. -/
theorem Line.instr_reduce {env : Env} {x : Operand} {a : FE} (r : Option Ident) (h : Operand.eval env x = some a) :
    Line.instr env (.request r .reduce [x]) = some (.reduce a FE.zero) := by
  simp [Line.instr, Mnemonic.instr, h]

theorem Operand.eval_newest (env : Env) (t : Ident) (c : FE) : Operand.eval ((t, c) :: env) (.name t) = some c :=
  List.lookup_cons_self

/-- Settles O60: both lines of the expansion are REDUCE lines, and the second finds the result of the first under its fresh name. -/
theorem reduce2ExpandsToTwoRequests : Obligations.Reduce2ExpandsToTwoRequests := by
  intro env used r x a c l s hx
  have hfirst := Line.instr_reduce (some (freshIdent used)) hx
  have hsecond := Line.instr_reduce (some r) (Operand.eval_newest env (freshIdent used) c)
  exact ⟨freshIdent_notMem used, rfl, hfirst, hsecond, rfl, rfl⟩

end Sys2Proof.Machine
end

section
/-! SUPPORT. ADD and SUB (40_add_sub.md R80 to R87): each limb of a result as a function of its own lane, the ranges that limb
ranges of the operands give, and what a legal request answers where its result is no draw. -/

namespace Sys2Proof.Machine

variable {s : State} {a b : FE} {lo hi lo' hi' : Int}

/-! ### A lane of a result (R81, R82, R83) -/

theorem limb_addDatapath (a b : FE) (i : Fin 5) : limb (addDatapath a b) i = s64 (limbValue a i + limbValue b i) := by
  fin_cases i <;> rfl

theorem limb_subDatapath (a b : FE) (i : Fin 5) : limb (subDatapath a b) i = s64 (limbValue a i - limbValue b i) := by
  fin_cases i <;> rfl

theorem limbValue_addDatapath (a b : FE) (i : Fin 5) :
    limbValue (addDatapath a b) i = (limbValue a i + limbValue b i).bmod (2 ^ 64) := by
  rw [limbValue, limb_addDatapath, value_s64]

theorem limbValue_subDatapath (a b : FE) (i : Fin 5) :
    limbValue (subDatapath a b) i = (limbValue a i - limbValue b i).bmod (2 ^ 64) := by
  rw [limbValue, limb_subDatapath, value_s64]

/-- Settles O44: limb i of a result is `s64` of a sum or difference of the two limbs i. -/
theorem lanesAreIndependent : Obligations.LanesAreIndependent := by
  intro a b a' b' i ha hb
  simp only [limb_addDatapath, limb_subDatapath, limbValue, ha, hb, and_self]

/-! ### Inside the precondition no lane wraps (R80, R85) -/

theorem limbValue_addDatapath_of_preOk (h : addPreOk a b = true) (i : Fin 5) :
    limbValue (addDatapath a b) i = limbValue a i + limbValue b i := by
  obtain ⟨hlo, hhi⟩ := (addPreOk_iff a b).mp h i
  rw [limbValue, limb_addDatapath, value_s64_of_range hlo hhi]

theorem limbValue_subDatapath_of_preOk (h : subPreOk a b = true) (i : Fin 5) :
    limbValue (subDatapath a b) i = limbValue a i - limbValue b i := by
  obtain ⟨hlo, hhi⟩ := (subPreOk_iff a b).mp h i
  rw [limbValue, limb_subDatapath, value_s64_of_range hlo hhi]

theorem val_eq_limbValues (a : FE) :
    val a = limbValue a 0 + limbValue a 1 * 2 ^ 51 + limbValue a 2 * 2 ^ 102 + limbValue a 3 * 2 ^ 153 +
      limbValue a 4 * 2 ^ 204 := rfl

theorem val_addDatapath (h : addPreOk a b = true) : val (addDatapath a b) = val a + val b := by
  simp only [val_eq_limbValues, limbValue_addDatapath_of_preOk h]
  ring

theorem val_subDatapath (h : subPreOk a b = true) : val (subDatapath a b) = val a - val b := by
  simp only [val_eq_limbValues, limbValue_subDatapath_of_preOk h]
  ring

/-! ### Limb ranges of sums and differences (R80, R87) -/

theorem limbsIn.mono (h : limbsIn lo hi a) (hlo : lo' ≤ lo) (hhi : hi ≤ hi') : limbsIn lo' hi' a :=
  fun i => ⟨hlo.trans (h i).1, (h i).2.trans hhi⟩

theorem normalised_iff_limbsIn : normalised a ↔ limbsIn 0 (2 ^ 51 - 1) a := by
  simp only [normalised, limbNormalised, limbsIn, limbValue, radix_eq, Int.le_sub_one_iff]

theorem addPreOk_of_limbsIn (ha : limbsIn lo hi a) (hb : limbsIn lo' hi' b) (hlo : -2 ^ 63 ≤ lo + lo')
    (hhi : hi + hi' ≤ 2 ^ 63 - 1) : addPreOk a b = true :=
  (addPreOk_iff a b).mpr fun i =>
    ⟨hlo.trans (add_le_add (ha i).1 (hb i).1), (add_le_add (ha i).2 (hb i).2).trans hhi⟩

theorem subPreOk_of_limbsIn (ha : limbsIn lo hi a) (hb : limbsIn lo' hi' b) (hlo : -2 ^ 63 ≤ lo - hi')
    (hhi : hi - lo' ≤ 2 ^ 63 - 1) : subPreOk a b = true :=
  (subPreOk_iff a b).mpr fun i =>
    ⟨hlo.trans (sub_le_sub (ha i).1 (hb i).2), (sub_le_sub (ha i).2 (hb i).1).trans hhi⟩

theorem limbsIn_addDatapath (h : addPreOk a b = true) (ha : limbsIn lo hi a) (hb : limbsIn lo' hi' b) :
    limbsIn (lo + lo') (hi + hi') (addDatapath a b) := by
  intro i
  rw [limbValue_addDatapath_of_preOk h]
  exact ⟨add_le_add (ha i).1 (hb i).1, add_le_add (ha i).2 (hb i).2⟩

theorem limbsIn_subDatapath (h : subPreOk a b = true) (ha : limbsIn lo hi a) (hb : limbsIn lo' hi' b) :
    limbsIn (lo - hi') (hi - lo') (subDatapath a b) := by
  intro i
  rw [limbValue_subDatapath_of_preOk h]
  exact ⟨sub_le_sub (ha i).1 (hb i).2, sub_le_sub (ha i).2 (hb i).1⟩

/-- Settles O42: inside the precondition `val` is a sum of lanes that do not wrap, and the range is that of `limbsIn` twice. -/
theorem addSubExactInsidePrecondition : Obligations.AddSubExactInsidePrecondition :=
  fun _ _ => ⟨val_addDatapath, val_subDatapath, fun ha hb =>
    ⟨addPreOk_of_limbsIn ha hb (by norm_num) (by norm_num), subPreOk_of_limbsIn ha hb (by norm_num) (by norm_num)⟩⟩

/-! ### What REDUCE and MULT ask of an operand (R100, R120) -/

/-- A carry lies in [-4096, 4095], so a limb that far inside 64 bits absorbs it. -/
theorem fits64_carrySum (i : Fin 4) (t : FE)
    (h : -2 ^ 63 + 4096 ≤ limbValue t i.succ ∧ limbValue t i.succ ≤ 2 ^ 63 - 4096) : fits64 (carrySum i t) = true := by
  obtain ⟨hlo, hhi⟩ := carryOf_range (limb t i.castSucc)
  rw [fits64_iff, carrySum]
  omega

/-- R100's sufficient range: when carry step i runs, limb i + 1 still is what it was. -/
theorem reducePreOk_of_range (h : ∀ i : Fin 4, -2 ^ 63 + 4096 ≤ limbValue a i.succ ∧ limbValue a i.succ ≤ 2 ^ 63 - 4096) :
    reducePreOk a = true := by
  simp only [reducePreOk, Bool.and_eq_true, and_assoc]
  exact ⟨fits64_carrySum 0 _ (h 0), fits64_carrySum 1 _ (h 1), fits64_carrySum 2 _ (h 2), fits64_carrySum 3 _ (h 3)⟩

theorem reducePreOk_of_limbsIn (h : limbsIn (-2 ^ 63 + 4096) (2 ^ 63 - 4096) a) : reducePreOk a = true :=
  reducePreOk_of_range fun i => h i.succ

/-- Settles O43: the limb ranges of the sum and of the difference lie inside R100's and R120's. -/
theorem normalisedSumsFeedMult : Obligations.NormalisedSumsFeedMult := by
  intro a b ha hb
  rw [normalised_iff_limbsIn] at ha hb
  have hadd := limbsIn_addDatapath (addPreOk_of_limbsIn ha hb (by norm_num) (by norm_num)) ha hb
  have hsub := limbsIn_subDatapath (subPreOk_of_limbsIn ha hb (by norm_num) (by norm_num)) ha hb
  refine ⟨hadd.mono (by norm_num) (by norm_num), hsub.mono (by norm_num) (by norm_num), ?_, ?_, ?_⟩
  · exact reducePreOk_of_limbsIn (hadd.mono (by norm_num) (by norm_num))
  · exact reducePreOk_of_limbsIn (hsub.mono (by norm_num) (by norm_num))
  · exact (multPreOk_iff _ _).mpr ⟨hadd.mono (by norm_num) (by norm_num), hsub.mono (by norm_num) (by norm_num)⟩

/-! ### What a legal request answers where its result is no draw (R65, R152) -/

theorem exec_of_legal {i : Instr} (hi : ¬ reservedCode i) (he : s.acceptEnabled)
    (hv : s.params.oorResult = .wrap ∨ preOk i = true) :
    exec i s = .next (s.afterAccept i ⟨computed i, legalStatus s.params (preOk i)⟩) := by
  have hdraw := usesDraw_eq_false hv
  rw [exec_of_enabled i he, responseOf, if_pos (Nat.not_le.mp hi), legalResult, hdraw]
  rfl

/-- The same with the precondition as a proposition `P`: C, ST, next state and OP field of a legal request. -/
theorem legal_answers {i : Instr} {P : Prop} (hi : ¬ reservedCode i) (hP : preOk i = true ↔ P) (he : s.acceptEnabled)
    (hv : s.params.oorResult = .wrap ∨ P) :
    ∃ st, illegalOp st = false ∧ (preViol st = true ↔ s.params.checkPrecond = true ∧ ¬ P) ∧
      (encode i).extractLsb' 640 4 = i.opcode ∧ exec i s = .next (s.afterAccept i ⟨computed i, st⟩) := by
  rw [← hP] at hv ⊢
  exact ⟨_, by simp, by simp, (Laws.TableRow.of_word i).2, exec_of_legal hi he hv⟩

/-- Settles O8: a legal request whose precondition is R80's condition on the exact sums. -/
theorem addAnswersWrappedLaneSums : Obligations.AddAnswersWrappedLaneSums := by
  intro a b s he hv
  have hlegal : ¬ reservedCode (.add a b) := by simp [reservedCode, Instr.opcode]
  obtain ⟨st, hst⟩ := legal_answers hlegal (addPreOk_iff a b) he hv
  exact ⟨addDatapath a b, st, limbValue_addDatapath a b, hst⟩

/-- Settles O9: a legal request whose precondition is R80's condition on the exact differences. -/
theorem subAnswersWrappedLaneDifferences : Obligations.SubAnswersWrappedLaneDifferences := by
  intro a b s he hv
  have hlegal : ¬ reservedCode (.sub a b) := by simp [reservedCode, Instr.opcode]
  obtain ⟨st, hst⟩ := legal_answers hlegal (subPreOk_iff a b) he hv
  exact ⟨subDatapath a b, st, limbValue_subDatapath a b, hst⟩

end Sys2Proof.Machine
end

section
/-! SUPPORT. REDUCE (41_reduce.md R100 to R108): what one carry step does to each limb, the limbs that the ripple hands to the
next carry, and one pass as a function of them. -/

namespace Sys2Proof.Machine

variable {a : FE}

/-! ### One carry step (R101, R103) -/

theorem limb_setLimb (t : FE) (i : Fin 5) (v : Limb) : limb (setLimb t i v) = Function.update (limb t) i v := by
  funext j
  fin_cases i <;> fin_cases j <;> rfl

theorem limb_carryStep_succ (i : Fin 4) (t : FE) : limb (carryStep i t) i.succ = s64 (carrySum i t) := by
  simp [carryStep, limb_setLimb, i.castSucc_lt_succ.ne']

theorem limb_carryStep_castSucc (i : Fin 4) (t : FE) :
    limb (carryStep i t) i.castSucc = s64 (limbValue t i.castSucc - shl51 (carryOf (limb t i.castSucc))) := by
  simp [carryStep, limb_setLimb, limbValue, i.castSucc_lt_succ.ne]

theorem limb_carryStep_of_ne {i : Fin 4} {t : FE} {j : Fin 5} (hj : j ≠ i.castSucc) (hj' : j ≠ i.succ) :
    limb (carryStep i t) j = limb t j := by
  simp [carryStep, limb_setLimb, hj, hj']

theorem carryOf_eq_ediv (x : Limb) : carryOf x = x.value / 2 ^ 51 := by
  rw [carryOf, shr51, radix_eq]

/-- `value_rest` with the modulus as the statements write it. -/
theorem value_rest_emod (x : Limb) : (s64 (x.value - shl51 (carryOf x))).value = x.value % 2 ^ 51 :=
  (value_rest x).trans (by norm_num)

/-- Settles O45: limb i keeps the rest of its carry, limb i + 1 takes the wrapped sum. -/
theorem carryStepLeavesFloorModulus : Obligations.CarryStepLeavesFloorModulus := by
  intro t i
  obtain ⟨hlo, hhi⟩ := carryOf_range (limb t i.castSucc)
  rw [carryOf_eq_ediv] at hlo hhi
  refine ⟨hlo, hhi, ?_, ?_, fun j => limb_carryStep_of_ne⟩
  · rw [limbValue, limb_carryStep_castSucc, limbValue, value_rest_emod]
  · rw [limbValue, limb_carryStep_succ, value_s64, carrySum, carryOf_eq_ediv]
    rfl

/-! ### The ripple and its precondition (R100, R102) -/

/-- The element whose limb i is limb i of the working copy when its own carry is taken out: a[0] as it stands, and t[1] to t[4]
as the carry steps before have left them. -/
def carried (a : FE) : FE :=
  let t1 := s64 (a.l1.value + carryOf a.l0)
  let t2 := s64 (a.l2.value + carryOf t1)
  let t3 := s64 (a.l3.value + carryOf t2)
  ⟨a.l0, t1, t2, t3, s64 (a.l4.value + carryOf t3)⟩

/-- The exact sum of carry step i inside the pass over `a`. -/
def passSum (a : FE) (i : Fin 4) : Int := limbValue a i.succ + carryOf (limb (carried a) i.castSucc)

theorem limb_carried_succ (a : FE) (i : Fin 4) : limb (carried a) i.succ = s64 (passSum a i) := by
  fin_cases i <;> rfl

theorem limbValue_carried_succ {v : Int} (i : Fin 4) (h : passSum a i = v) :
    limbValue (carried a) i.succ = v.bmod (2 ^ 64) := by
  rw [limbValue, limb_carried_succ, value_s64, h]

theorem passSum_of_carried {v : Int} (i : Fin 4) (h : limbValue (carried a) i.castSucc = v) :
    passSum a i = limbValue a i.succ + v / 2 ^ 51 := by
  rw [passSum, carryOf_eq_ediv, ← h]
  rfl

theorem forall_carryStep {P : Fin 4 → Prop} : (∀ i, P i) ↔ P 0 ∧ P 1 ∧ P 2 ∧ P 3 := by
  simp [Fin.forall_fin_succ]

theorem reducePreOk_iff (a : FE) : reducePreOk a = true ↔ ∀ i, inRange64 (passSum a i) := by
  simp only [inRange64_iff, forall_carryStep, reducePreOk, Bool.and_eq_true, and_assoc]
  rfl

/-- Settles O46: the carry sums of `reducePreOk` one by one, and R100's sufficient range. -/
theorem reducePreconditionIsCarrySums : Obligations.ReducePreconditionIsCarrySums := by
  intro a t1 t2 t3
  refine ⟨?_, reducePreOk_of_range⟩
  simp only [reducePreOk, inRange64_iff, Bool.and_eq_true, and_assoc]
  rfl

/-! ### One pass (R102, R104) -/

theorem l4_rippled (a : FE) : (rippled a).l4 = (carried a).l4 := rfl

theorem limbValue_reduceDatapath_succ (a : FE) (i : Fin 4) :
    limbValue (reduceDatapath a) i.succ = limbValue (carried a) i.succ % 2 ^ 51 := by
  fin_cases i <;> exact value_rest_emod _

theorem limbNormalised_reduceDatapath_succ (a : FE) (i : Fin 4) : limbNormalised (limb (reduceDatapath a) i.succ) := by
  have h : (limb (reduceDatapath a) i.succ).value = _ := limbValue_reduceDatapath_succ a i
  rw [limbNormalised, radix_eq, h]
  omega

theorem l0_reduceDatapath (a : FE) : (reduceDatapath a).l0.value = a.l0.value % 2 ^ 51 + 19 * carryOf (carried a).l4 := by
  have hrest : (rippled a).l0.value = a.l0.value % 2 ^ 51 := value_rest_emod a.l0
  rw [← l4_rippled, ← hrest]
  exact value_fold (by omega) (by omega)

theorem l0_reduceDatapath_range (a : FE) :
    -77824 ≤ (reduceDatapath a).l0.value ∧ (reduceDatapath a).l0.value ≤ 2251799813763052 := by
  have hzero := l0_reduceDatapath a
  have hcarry := carryOf_range (carried a).l4
  omega

/-- Settles O47: limb 0 is a rest in [0, 2^51) and 19 times a carry, which is not negative where limb 4 is not. -/
theorem reduceOutputRanges : Obligations.ReduceOutputRanges := by
  intro a
  have hsucc := limbNormalised_reduceDatapath_succ a
  obtain ⟨hlo, hhi⟩ := l0_reduceDatapath_range a
  refine ⟨hsucc 0, hsucc 1, hsucc 2, hsucc 3, hlo, hhi, fun h4 => ?_⟩
  have hzero := l0_reduceDatapath a
  have hcarry := carryOf_eq_ediv (carried a).l4
  rw [l4_rippled] at h4
  omega

/-! ### A normalised operand (R106) -/

theorem carryOf_of_normalised {x : Limb} (h : limbNormalised x) : carryOf x = 0 :=
  Int.ediv_eq_zero_of_lt h.1 h.2

theorem emod_of_normalised {x : Limb} (h : limbNormalised x) : x.value % 2 ^ 51 = x.value :=
  Int.emod_eq_of_lt h.1 (radix_eq ▸ h.2)

theorem carried_of_normalised (ha : normalised a) : carried a = a := by
  refine FE.ext_limbs fun i => ?_
  induction i using Fin.induction with
  | zero => rfl
  | succ i ih =>
    rw [limb_carried_succ, passSum, ih, carryOf_of_normalised (ha i.castSucc), add_zero, limbValue, s64_value]

theorem reduceDatapath_of_normalised (ha : normalised a) : reduceDatapath a = a := by
  refine FE.ext_values fun i => ?_
  cases i using Fin.cases with
  | zero =>
    have hcarry : carryOf a.l4 = 0 := carryOf_of_normalised (ha 4)
    rw [limbValue, limb_zero, l0_reduceDatapath, carried_of_normalised ha, hcarry, mul_zero, add_zero]
    exact emod_of_normalised (ha 0)
  | succ i =>
    rw [limbValue_reduceDatapath_succ, carried_of_normalised ha]
    exact emod_of_normalised (ha i.succ)

theorem reducePreOk_of_normalised_succ (ha : ∀ i : Fin 4, limbNormalised (limb a i.succ)) : reducePreOk a = true := by
  refine reducePreOk_of_range fun i => ?_
  obtain ⟨hlo, hhi⟩ := ha i
  rw [radix_eq] at hhi
  rw [limbValue]
  omega

/-- Settles O48: no limb has a carry, so the pass takes floor moduli of limbs in [0, 2^51). -/
theorem normalisedIsReduceFixedPoint : Obligations.NormalisedIsReduceFixedPoint :=
  fun _ ha => ⟨reduceDatapath_of_normalised ha, reducePreOk_of_normalised_succ fun i => ha i.succ⟩

/-! ### A second pass (R107) -/

/-- A limb in [0, 2^51) that takes in a carry between 0 and a carry `c0` in {-1, 0, 1} passes on such a carry again. -/
theorem carryOf_add_between {x : Limb} {c0 c : Int} (hx : limbNormalised x) (hc0 : -1 ≤ c0 ∧ c0 ≤ 1)
    (hc : min c0 0 ≤ c ∧ c ≤ max c0 0) :
    min c0 0 ≤ carryOf (s64 (x.value + c)) ∧ carryOf (s64 (x.value + c)) ≤ max c0 0 := by
  obtain ⟨hx0, hx1⟩ := hx
  rw [radix_eq] at hx1
  rw [carryOf_eq_ediv, value_s64_of_range (by omega) (by omega)]
  omega

/-- So the ripple hands a small carry of limb 0 on up to the fold step, or loses it on the way. -/
theorem carryOf_carried_between (ha : ∀ i : Fin 4, limbNormalised (limb a i.succ))
    (h0 : -1 ≤ carryOf a.l0 ∧ carryOf a.l0 ≤ 1) (i : Fin 5) :
    min (carryOf a.l0) 0 ≤ carryOf (limb (carried a) i) ∧ carryOf (limb (carried a) i) ≤ max (carryOf a.l0) 0 := by
  induction i using Fin.induction with
  | zero => exact ⟨min_le_left _ _, le_max_left _ _⟩
  | succ i ih =>
    rw [limb_carried_succ]
    exact carryOf_add_between (ha i) h0 ih

/-- Limb 0 in R104's range: what the fold step adds cannot carry it out of [0, 2^51) again. -/
theorem normalised_reduceDatapath (ha : ∀ i : Fin 4, limbNormalised (limb a i.succ))
    (h0 : -77824 ≤ a.l0.value ∧ a.l0.value ≤ 2251799813763052) : normalised (reduceDatapath a) := by
  intro i
  cases i using Fin.cases with
  | zero =>
    have hc0 := carryOf_eq_ediv a.l0
    have hc4 : min (carryOf a.l0) 0 ≤ carryOf (carried a).l4 ∧ carryOf (carried a).l4 ≤ max (carryOf a.l0) 0 :=
      carryOf_carried_between ha (by omega) 4
    rw [limb_zero, limbNormalised, radix_eq, l0_reduceDatapath]
    omega
  | succ i => exact limbNormalised_reduceDatapath_succ a i

/-- Settles O49: the first pass leaves the ranges of R104, from which the second normalises. -/
theorem twoReducePassesNormalise : Obligations.TwoReducePassesNormalise := by
  intro a
  have hsucc := limbNormalised_reduceDatapath_succ a
  exact ⟨normalised_reduceDatapath hsucc (l0_reduceDatapath_range a), reducePreOk_of_normalised_succ hsucc⟩

/-! ### The represented integer (R108) -/

/-- The carry that limb i hands on inside the precondition is taken from it and added to limb i + 1, with nothing lost. -/
theorem limbValue_reduceDatapath_of_preOk (h : reducePreOk a = true) (i : Fin 4) :
    limbValue (reduceDatapath a) i.succ =
      limbValue a i.succ + carryOf (limb (carried a) i.castSucc) - 2 ^ 51 * carryOf (limb (carried a) i.succ) := by
  obtain ⟨hlo, hhi⟩ := (reducePreOk_iff a).mp h i
  have hsum : limbValue (carried a) i.succ = passSum a i := by
    rw [limbValue, limb_carried_succ, value_s64_of_range hlo hhi]
  rw [limbValue_reduceDatapath_succ, carryOf_eq_ediv (limb (carried a) i.succ), ← passSum, ← hsum]
  exact Int.emod_def _ _

/-- The sum over the limbs telescopes: what is left is the carry of limb 4, which weighs 2^255 and comes back 19-fold. -/
theorem val_reduceDatapath (h : reducePreOk a = true) :
    val (reduceDatapath a) = val a - carryOf (rippled a).l4 * (2 ^ 255 - 19) := by
  have hlimb := limbValue_reduceDatapath_of_preOk h
  have h0 : (reduceDatapath a).l0.value = a.l0.value - 2 ^ 51 * carryOf (carried a).l0 + 19 * carryOf (carried a).l4 := by
    rw [l0_reduceDatapath, Int.emod_def, ← carryOf_eq_ediv]
    rfl
  have h1 : (reduceDatapath a).l1.value = a.l1.value + carryOf (carried a).l0 - 2 ^ 51 * carryOf (carried a).l1 := hlimb 0
  have h2 : (reduceDatapath a).l2.value = a.l2.value + carryOf (carried a).l1 - 2 ^ 51 * carryOf (carried a).l2 := hlimb 1
  have h3 : (reduceDatapath a).l3.value = a.l3.value + carryOf (carried a).l2 - 2 ^ 51 * carryOf (carried a).l3 := hlimb 2
  have h4 : (reduceDatapath a).l4.value = a.l4.value + carryOf (carried a).l3 - 2 ^ 51 * carryOf (carried a).l4 := hlimb 3
  rw [val, val, h0, h1, h2, h3, h4, l4_rippled]
  ring

/-- Settles O50: the change is a multiple of p. -/
theorem reducePreservesFieldValue : Obligations.ReducePreservesFieldValue := by
  intro a h
  have hval := val_reduceDatapath h
  refine ⟨hval, ?_⟩
  rw [sameFieldValue, fieldValue, fieldValue, hval, Config.modulus, Int.sub_mul_emod_self_right]

/-! ### What a request answers (R65, R102, R152) -/

/-- Settles O10: a legal request whose precondition is R100's condition on the exact carry sums, which with the limbs they leave
are worked out step by step. -/
theorem reduceAnswersOneCarryPass : Obligations.ReduceAnswersOneCarryPass := by
  intro a b s he x s1 t1 s2 t2 s3 t3 s4 t4 pre hv
  have hs1 : passSum a 0 = s1 := passSum_of_carried 0 rfl
  have ht1 : limbValue (carried a) 1 = t1 := limbValue_carried_succ 0 hs1
  have hs2 : passSum a 1 = s2 := passSum_of_carried 1 ht1
  have ht2 : limbValue (carried a) 2 = t2 := limbValue_carried_succ 1 hs2
  have hs3 : passSum a 2 = s3 := passSum_of_carried 2 ht2
  have ht3 : limbValue (carried a) 3 = t3 := limbValue_carried_succ 2 hs3
  have hs4 : passSum a 3 = s4 := passSum_of_carried 3 ht3
  have ht4 : limbValue (carried a) 4 = t4 := limbValue_carried_succ 3 hs4
  have hpre : preOk (.reduce a b) = true ↔ pre := by
    simp only [pre, ← hs1, ← hs2, ← hs3, ← hs4]
    exact (reducePreOk_iff a).trans forall_carryStep
  have hlegal : ¬ reservedCode (.reduce a b) := by simp [reservedCode, Instr.opcode]
  obtain ⟨st, hst⟩ := legal_answers hlegal hpre he hv
  have hrest := limbValue_reduceDatapath_succ a
  refine ⟨reduceDatapath a, st, ?_, ht1 ▸ hrest 0, ht2 ▸ hrest 1, ht3 ▸ hrest 2, ht4 ▸ hrest 3, hst⟩
  exact (l0_reduceDatapath a).trans (by rw [carryOf_eq_ediv, ← ht4]; rfl)

end Sys2Proof.Machine
end

section
/-! SUPPORT. MULT, steps 1 to 4 (42_mult.md R121 to R125, R128): the nine coefficients as sums of products, the coefficients as the
wide carry pass takes their carries out, and how large every intermediate value can be; then the 136-bit accumulators, which hold
those values, and the narrowing. -/

namespace Sys2Proof.Machine

variable {a b : FE} {f : Wide} {B M N : Int}

/-! ### The convolution (R121) -/

/-- The k-th convolution sum, as R121 writes it. -/
def convCoeff (a b : FE) (k : Nat) : Int :=
  ∑ i : Fin 5, ∑ j : Fin 5, if i.val + j.val = k then limbValue a i * limbValue b j else 0

theorem convolution_eq (a b : FE) :
    convolution a b = ⟨convCoeff a b 0, convCoeff a b 1, convCoeff a b 2, convCoeff a b 3, convCoeff a b 4,
      convCoeff a b 5, convCoeff a b 6, convCoeff a b 7, convCoeff a b 8⟩ := by
  simp [convolution, convCoeff, Fin.sum_univ_five, limbValue]

/-- The coefficients are those of a product of two polynomials at radix 2^51. -/
theorem val_mul_eq_convolution (a b : FE) :
    (convolution a b).r0 + (convolution a b).r1 * 2 ^ 51 + (convolution a b).r2 * 2 ^ 102 + (convolution a b).r3 * 2 ^ 153 +
      (convolution a b).r4 * 2 ^ 204 + ((convolution a b).r5 + (convolution a b).r6 * 2 ^ 51 +
      (convolution a b).r7 * 2 ^ 102 + (convolution a b).r8 * 2 ^ 153) * 2 ^ 255 = val a * val b := by
  simp only [convolution, val]
  ring

/-- Settles O51: each coefficient is its sum, and the product multiplies out. -/
theorem convolutionIsExactProduct : Obligations.ConvolutionIsExactProduct := by
  intro a b r sum
  have hr : r = ⟨sum 0, sum 1, sum 2, sum 3, sum 4, sum 5, sum 6, sum 7, sum 8⟩ := convolution_eq a b
  exact ⟨by simp [hr], val_mul_eq_convolution a b⟩

theorem convCoeff_comm (a b : FE) (k : Nat) : convCoeff a b k = convCoeff b a k := by
  rw [convCoeff, Finset.sum_comm]
  simp only [convCoeff, add_comm, mul_comm]

theorem convolution_comm (a b : FE) : convolution a b = convolution b a := by
  simp only [convolution_eq, convCoeff_comm a b]

/-! ### The wide carry pass (R124) -/

/-- The coefficients of the wide carry pass, each as it stands when its own carry is taken out. -/
def wideCarried (f : Wide) : Wide :=
  let g1 := f.r1 + f.r0 / 2 ^ 51
  let g2 := f.r2 + g1 / 2 ^ 51
  let g3 := f.r3 + g2 / 2 ^ 51
  ⟨f.r0, g1, g2, g3, f.r4 + g3 / 2 ^ 51⟩

theorem shr51_eq_ediv (x : Int) : shr51 x = x / 2 ^ 51 := by
  rw [shr51, radix_eq]

theorem shl51_eq_mul (x : Int) : shl51 x = x * 2 ^ 51 := by
  rw [shl51, radix_eq]

theorem wideCarryPass_eq (f : Wide) :
    wideCarryPass f =
      let g := wideCarried f
      ⟨g.r0 - g.r0 / 2 ^ 51 * 2 ^ 51 + 19 * (g.r4 / 2 ^ 51), g.r1 - g.r1 / 2 ^ 51 * 2 ^ 51, g.r2 - g.r2 / 2 ^ 51 * 2 ^ 51,
        g.r3 - g.r3 / 2 ^ 51 * 2 ^ 51, g.r4 - g.r4 / 2 ^ 51 * 2 ^ 51⟩ := by
  simp only [wideCarryPass, wideCarried, shr51_eq_ediv, shl51_eq_mul, Config.fold]

/-! ### Bounds on products and their sums (R122, R128) -/

/-- The sum of the products of some of the pairs of limbs. -/
def partialSum (a b : FE) (S : Finset (Fin 5 × Fin 5)) : Int := ∑ p ∈ S, limbValue a p.1 * limbValue b p.2

theorem convCoeff_eq_partialSum (a b : FE) (k : Nat) :
    convCoeff a b k = partialSum a b {p | p.1.val + p.2.val = k} := by
  rw [partialSum, Finset.sum_filter, Fintype.sum_prod_type]
  rfl

/-- Every product of a limb of `a` and a limb of `b` has magnitude at most `B`. -/
def productsWithin (B : Int) (a b : FE) : Prop := ∀ i j, |limbValue a i * limbValue b j| ≤ B

theorem productsWithin_of_limbsIn (ha : limbsIn (-M) M a) (hb : limbsIn (-M) M b) : productsWithin (M * M) a b := by
  intro i j
  have hi := abs_le.mpr (ha i)
  rw [abs_mul]
  exact mul_le_mul hi (abs_le.mpr (hb j)) (abs_nonneg _) ((abs_nonneg _).trans hi)

/-- Any two operands: their limbs are 64-bit integers. -/
theorem productsWithin_all (a b : FE) : productsWithin (2 ^ 63 * 2 ^ 63) a b := by
  have hlimbs (x : FE) : limbsIn (-2 ^ 63) (2 ^ 63) x := fun i =>
    ⟨(value_range (limb x i)).1, (value_range (limb x i)).2.trans (by norm_num)⟩
  exact productsWithin_of_limbsIn (hlimbs a) (hlimbs b)

theorem productsWithin_of_multDuty (h : multDuty a b) : productsWithin ((2 ^ 52 - 1) * (2 ^ 52 - 1)) a b :=
  productsWithin_of_limbsIn h.1 h.2

theorem abs_partialSum_le (h : productsWithin B a b) (S : Finset (Fin 5 × Fin 5)) : |partialSum a b S| ≤ S.card * B := by
  calc |partialSum a b S| ≤ ∑ p ∈ S, |limbValue a p.1 * limbValue b p.2| := Finset.abs_sum_le_sum_abs _ _
    _ ≤ S.card • B := Finset.sum_le_card_nsmul _ _ _ fun p _ => h p.1 p.2
    _ = S.card * B := nsmul_eq_mul _ _

/-- The number of products in a coefficient of R121. -/
theorem abs_convCoeff_le (h : productsWithin B a b) (k m : Nat)
    (hk : Finset.card {p : Fin 5 × Fin 5 | p.1.val + p.2.val = k} = m) : |convCoeff a b k| ≤ m * B := by
  rw [convCoeff_eq_partialSum, ← hk]
  exact abs_partialSum_le h _

/-- R128's row for step 1, with the number of products in each coefficient. -/
structure Coeffs.Within (B : Int) (r : Coeffs) : Prop where
  r0 : |r.r0| ≤ 1 * B
  r1 : |r.r1| ≤ 2 * B
  r2 : |r.r2| ≤ 3 * B
  r3 : |r.r3| ≤ 4 * B
  r4 : |r.r4| ≤ 5 * B
  r5 : |r.r5| ≤ 4 * B
  r6 : |r.r6| ≤ 3 * B
  r7 : |r.r7| ≤ 2 * B
  r8 : |r.r8| ≤ 1 * B

theorem convolution_within (h : productsWithin B a b) : (convolution a b).Within B := by
  have hk := abs_convCoeff_le h
  rw [convolution_eq]
  exact ⟨hk 0 1 (by decide), hk 1 2 (by decide), hk 2 3 (by decide), hk 3 4 (by decide), hk 4 5 (by decide),
    hk 5 4 (by decide), hk 6 3 (by decide), hk 7 2 (by decide), hk 8 1 (by decide)⟩

/-- R128's row for step 2. -/
structure Wide.Within (B : Int) (f : Wide) : Prop where
  r0 : |f.r0| ≤ 77 * B
  r1 : |f.r1| ≤ 59 * B
  r2 : |f.r2| ≤ 41 * B
  r3 : |f.r3| ≤ 23 * B
  r4 : |f.r4| ≤ 5 * B

theorem abs_add_fold_le {x y c d : Int} (hx : |x| ≤ c * B) (hy : |y| ≤ d * B) :
    |x + Config.fold * y| ≤ (c + 19 * d) * B := by
  calc |x + Config.fold * y| ≤ |x| + 19 * |y| := (abs_add_le _ _).trans_eq (by rw [abs_mul]; rfl)
    _ ≤ c * B + 19 * (d * B) := by omega
    _ = (c + 19 * d) * B := by ring

theorem foldHigh_within {r : Coeffs} (h : r.Within B) : (foldHigh r).Within B :=
  ⟨abs_add_fold_le h.r0 h.r5, abs_add_fold_le h.r1 h.r6, abs_add_fold_le h.r2 h.r7, abs_add_fold_le h.r3 h.r8, h.r4⟩

theorem folded_within (h : productsWithin B a b) : (foldHigh (convolution a b)).Within B :=
  foldHigh_within (convolution_within h)

/-- What the carries that come in make of the bounds of step 2: each of them is far smaller than `B`. -/
structure Wide.CarriedWithin (B : Int) (g : Wide) : Prop where
  r0 : |g.r0| ≤ 77 * B
  r1 : |g.r1| ≤ 60 * B
  r2 : |g.r2| ≤ 42 * B
  r3 : |g.r3| ≤ 24 * B
  r4 : |g.r4| ≤ 6 * B

theorem wideCarried_within (h : f.Within B) : (wideCarried f).CarriedWithin B := by
  obtain ⟨h0, h1, h2, h3, h4⟩ := h
  rw [abs_le] at h0 h1 h2 h3 h4
  constructor <;> simp only [wideCarried, abs_le] <;> omega

/-- The values of step 3 that R122 speaks of, in the order of WideValuesFitAccumulator. -/
def carryPassValues (f : Wide) : List Int :=
  let g := wideCarried f
  let out := wideCarryPass f
  [g.r0 / 2 ^ 51, g.r1 / 2 ^ 51, g.r2 / 2 ^ 51, g.r3 / 2 ^ 51, g.r4 / 2 ^ 51,
    g.r0 / 2 ^ 51 * 2 ^ 51, g.r1 / 2 ^ 51 * 2 ^ 51, g.r2 / 2 ^ 51 * 2 ^ 51, g.r3 / 2 ^ 51 * 2 ^ 51,
    g.r4 / 2 ^ 51 * 2 ^ 51, g.r1, g.r2, g.r3, g.r4, g.r0 - g.r0 / 2 ^ 51 * 2 ^ 51, 19 * (g.r4 / 2 ^ 51),
    out.r0, out.r1, out.r2, out.r3, out.r4]

theorem carryPassValues_within (h : f.Within B) (hN : 77 * B + 2 ^ 64 ≤ N) : ∀ v ∈ carryPassValues f, -N < v ∧ v < N := by
  obtain ⟨h0, h1, h2, h3, h4⟩ := wideCarried_within h
  rw [abs_le] at h0 h1 h2 h3 h4
  simp only [carryPassValues, wideCarryPass_eq, List.forall_mem_cons, List.not_mem_nil, false_implies, implies_true, and_true]
  generalize wideCarried f = g at *
  and_intros <;> omega

/-- The values of steps 1 and 2, in the same order. -/
def foldValues (r : Coeffs) : List Int :=
  let f := foldHigh r
  [r.r0, r.r1, r.r2, r.r3, r.r4, r.r5, r.r6, r.r7, r.r8] ++
    [19 * r.r5, 19 * r.r6, 19 * r.r7, 19 * r.r8, f.r0, f.r1, f.r2, f.r3, f.r4]

theorem foldValues_within {r : Coeffs} (h : r.Within B) (hN : 77 * B + 2 ^ 64 ≤ N) :
    ∀ v ∈ foldValues r, -N < v ∧ v < N := by
  obtain ⟨h0, h1, h2, h3, h4, h5, h6, h7, h8⟩ := h
  rw [abs_le] at h0 h1 h2 h3 h4 h5 h6 h7 h8
  simp only [foldValues, foldHigh, Config.fold, List.cons_append, List.nil_append, List.forall_mem_cons, List.not_mem_nil,
    false_implies, implies_true, and_true]
  and_intros <;> omega

/-- Products within `B` bound every intermediate value of steps 1 to 3 by 77·B and little more. -/
theorem wideValues_within (h : productsWithin B a b) (hN : 77 * B + 2 ^ 64 ≤ N) :
    (∀ S, -N < partialSum a b S ∧ partialSum a b S < N) ∧
      ∀ v ∈ foldValues (convolution a b) ++ carryPassValues (foldHigh (convolution a b)), -N < v ∧ v < N := by
  refine ⟨fun S => abs_lt.mp ?_, fun v hv => ?_⟩
  · have hB : 0 ≤ B := (abs_nonneg _).trans (h 0 0)
    have hcard : (S.card : Int) ≤ 25 := by exact_mod_cast S.card_le_univ
    calc |partialSum a b S| ≤ S.card * B := abs_partialSum_le h S
      _ ≤ 25 * B := mul_le_mul_of_nonneg_right hcard hB
      _ < N := by omega
  · rcases List.mem_append.mp hv with hv | hv
    · exact foldValues_within (convolution_within h) hN v hv
    · exact carryPassValues_within (folded_within h) hN v hv

/-- Settles O52: a product is at most 2^126, and below 2^104 inside the precondition. -/
theorem wideValuesFitAccumulator : Obligations.WideValuesFitAccumulator := by
  intro a b
  obtain ⟨hsums, hvalues⟩ := wideValues_within (N := 2 ^ 133) (productsWithin_all a b) (by norm_num)
  exact ⟨wideCarryPass_eq _, hsums, hvalues, fun hduty =>
    wideValues_within (productsWithin_of_multDuty hduty) (by norm_num)⟩

/-! ### The 136-bit accumulators (R122) -/

/-- The accumulators that hold five integers. -/
def AccWide.ofWide (w : Wide) : AccWide :=
  ⟨BitVec.ofInt 136 w.r0, BitVec.ofInt 136 w.r1, BitVec.ofInt 136 w.r2, BitVec.ofInt 136 w.r3, BitVec.ofInt 136 w.r4⟩

theorem accFolded_eq (a b : FE) : accFolded a b = AccWide.ofWide (foldHigh (convolution a b)) := by
  simp only [accFolded, accOf_eq, accFold_eq, ← BitVec.ofInt_mul, ← BitVec.ofInt_add]
  rfl

theorem acc_shiftRight_of_abs_le {v : Int} (h : |v| ≤ 77 * (2 ^ 63 * 2 ^ 63)) :
    (BitVec.ofInt 136 v).sshiftRight 51 = BitVec.ofInt 136 (shr51 v) := by
  rw [abs_le] at h
  exact acc_shiftRight (by omega) (by omega)

/-- Each shift is exact, because the integer in its accumulator is far inside 136 bits. -/
theorem accCarryPass_eq (h : f.Within (2 ^ 63 * 2 ^ 63)) :
    accCarryPass (AccWide.ofWide f) = AccWide.ofWide (wideCarryPass f) := by
  obtain ⟨h0, h1, h2, h3, h4⟩ := wideCarried_within h
  have s0 := acc_shiftRight_of_abs_le h0
  have s1 := acc_shiftRight_of_abs_le (h1.trans (by norm_num))
  have s2 := acc_shiftRight_of_abs_le (h2.trans (by norm_num))
  have s3 := acc_shiftRight_of_abs_le (h3.trans (by norm_num))
  have s4 := acc_shiftRight_of_abs_le (h4.trans (by norm_num))
  simp only [wideCarried, ← shr51_eq_ediv] at s0 s1 s2 s3 s4
  simp only [accCarryPass, AccWide.ofWide, accFold_eq, ← BitVec.ofInt_add, ← BitVec.ofInt_mul, ← acc_sub, acc_shiftLeft,
    s0, s1, s2, s3, s4]
  rfl

theorem accNarrow_ofWide (w : Wide) : accNarrow (AccWide.ofWide w) = narrow w := by
  simp only [accNarrow, AccWide.ofWide, acc_low]
  rfl

/-- Settles O53: steps 1 to 3 agree in every accumulator, and narrowing takes its low 64 bits. -/
theorem accumulatorMatchesExactIntegers : Obligations.AccumulatorMatchesExactIntegers := by
  intro a b
  rw [accMultNarrowed, accFolded_eq, accCarryPass_eq (folded_within (productsWithin_all a b)), accNarrow_ofWide]
  rfl

/-! ### Narrowing (R125) -/

/-- Inside the precondition limb 0 of step 3 is a rest in [0, 2^51) and 19 times a carry of limb 4 (R128). -/
theorem wideCarryPass_range (h : f.Within ((2 ^ 52 - 1) * (2 ^ 52 - 1))) :
    -855683929200395627 ≤ (wideCarryPass f).r0 ∧ (wideCarryPass f).r0 ≤ 857935729014080855 := by
  obtain ⟨h0, h1, h2, h3, h4⟩ := h
  rw [abs_le] at h0 h1 h2 h3 h4
  simp only [wideCarryPass_eq, wideCarried]
  omega

/-- What a carry leaves fits a limb, so that narrowing it loses nothing. -/
theorem s64_rest (x : Int) :
    (s64 (x - x / 2 ^ 51 * 2 ^ 51)).value = x - x / 2 ^ 51 * 2 ^ 51 ∧ limbNormalised (s64 (x - x / 2 ^ 51 * 2 ^ 51)) := by
  have hval := value_s64_of_range (v := x - x / 2 ^ 51 * 2 ^ 51) (by omega) (by omega)
  rw [limbNormalised, hval, radix_eq]
  omega

/-- Limbs 1 to 4 lose nothing, for every pair of operands. -/
theorem narrow_wideCarryPass_succ (f : Wide) :
    let r := wideCarryPass f
    (narrow r).l1.value = r.r1 ∧ (narrow r).l2.value = r.r2 ∧ (narrow r).l3.value = r.r3 ∧ (narrow r).l4.value = r.r4 ∧
      ∀ i : Fin 4, limbNormalised (limb (narrow r) i.succ) := by
  obtain ⟨h1, hn1⟩ := s64_rest (wideCarried f).r1
  obtain ⟨h2, hn2⟩ := s64_rest (wideCarried f).r2
  obtain ⟨h3, hn3⟩ := s64_rest (wideCarried f).r3
  obtain ⟨h4, hn4⟩ := s64_rest (wideCarried f).r4
  rw [wideCarryPass_eq]
  exact ⟨h1, h2, h3, h4, forall_carryStep.mpr ⟨hn1, hn2, hn3, hn4⟩⟩

theorem narrow_wideCarryPass_zero (h : f.Within ((2 ^ 52 - 1) * (2 ^ 52 - 1))) :
    (narrow (wideCarryPass f)).l0.value = (wideCarryPass f).r0 := by
  obtain ⟨hlo, hhi⟩ := wideCarryPass_range h
  exact value_s64_of_range (by omega) (by omega)

/-- Settles O54: the rests are below 2^51, and limb 0 is in R125's range; 2^62 in limb 0 of A and limb 4 of B makes r[0] as large
as 19·2^73. -/
theorem narrowingIsLosslessInPrecondition : Obligations.NarrowingIsLosslessInPrecondition := by
  refine ⟨fun a b => ?_, ofInts (2 ^ 62) 0 0 0 0, ofInts 0 0 0 0 (2 ^ 62), ?_⟩
  · refine ⟨value_s64 _, value_s64 _, value_s64 _, value_s64 _, value_s64 _, fun hduty => ?_⟩
    have hf := folded_within (productsWithin_of_multDuty hduty)
    have h0 := narrow_wideCarryPass_zero hf
    obtain ⟨h1, h2, h3, h4, hn⟩ := narrow_wideCarryPass_succ (foldHigh (convolution a b))
    exact ⟨h0, h1, h2, h3, h4, hn 0, hn 1, hn 2, hn 3, h0 ▸ wideCarryPass_range hf⟩
  · unfold inRange64
    decide

end Sys2Proof.Machine
end

section
/-! SUPPORT. MULT as a whole (42_mult.md R127 to R134): what a request answers, that its result is normalised, and what field value
it stands for. -/

namespace Sys2Proof.Machine

variable {a b : FE} {x y : Int}

/-- Settles O11: n is `s64` of each coefficient of the wide carry pass, and MULT is a legal request. -/
theorem multAnswersFiveSteps : Obligations.MultAnswersFiveSteps := by
  intro a b s he r f k0 g1 k1 g2 k2 g3 k3 g4 k4 hv
  have hfold : foldHigh (convolution a b) = ⟨f 0, f 1, f 2, f 3, f 4⟩ := by rw [convolution_eq]; rfl
  have hn : multNarrowed a b = ofInts (f 0 - k0 * 2 ^ 51 + 19 * k4) (g1 - k1 * 2 ^ 51) (g2 - k2 * 2 ^ 51)
      (g3 - k3 * 2 ^ 51) (g4 - k4 * 2 ^ 51) := by
    rw [multNarrowed, hfold, wideCarryPass_eq]
    rfl
  have hlegal : ¬ reservedCode (.mult a b) := by simp [reservedCode, Instr.opcode]
  obtain ⟨st, hst⟩ := legal_answers hlegal (multPreOk_iff a b) he hv
  refine ⟨multNarrowed a b, st, ?_, ?_, ?_, ?_, ?_, hst⟩ <;>
  · rw [hn]
    exact value_s64 _

/-- Settles O55: MULT ends with two REDUCE passes. -/
theorem multResultIsNormalised : Obligations.MultResultIsNormalised :=
  fun a b => (twoReducePassesNormalise (multNarrowed a b)).1

/-- Settles O57: the coefficients are symmetric, and every later step reads only them. -/
theorem multCommutes : Obligations.MultCommutes := by
  intro a b
  rw [multDatapath, multNarrowed, convolution_comm, multPreOk, Bool.and_comm]
  exact ⟨rfl, rfl⟩

/-! ### The field value (R129) -/

/-- The integer that five wide coefficients represent. -/
def wideVal (w : Wide) : Int := w.r0 + w.r1 * 2 ^ 51 + w.r2 * 2 ^ 102 + w.r3 * 2 ^ 153 + w.r4 * 2 ^ 204

/-- `congrP` is congruence of integers, of which `sameFieldValue` is the case of two elements. -/
theorem congrP_iff : congrP x y ↔ x ≡ y [ZMOD Config.modulus] := by
  rw [congrP, Int.modEq_comm, Int.modEq_iff_dvd]

theorem wideVal_foldHigh (a b : FE) : wideVal (foldHigh (convolution a b)) ≡ val a * val b [ZMOD Config.modulus] := by
  refine Int.modEq_iff_dvd.mpr ⟨(convolution a b).r5 + (convolution a b).r6 * 2 ^ 51 + (convolution a b).r7 * 2 ^ 102 +
    (convolution a b).r8 * 2 ^ 153, ?_⟩
  rw [← val_mul_eq_convolution, wideVal, foldHigh, Config.fold, Config.modulus]
  ring

/-- The carries telescope, but for that of limb 4, which weighs 2^255 and comes back 19-fold. -/
theorem wideVal_wideCarryPass (f : Wide) : wideVal (wideCarryPass f) ≡ wideVal f [ZMOD Config.modulus] := by
  refine Int.modEq_iff_dvd.mpr ⟨(wideCarried f).r4 / 2 ^ 51, ?_⟩
  simp only [wideCarryPass_eq, wideVal, wideCarried, Config.modulus]
  ring

theorem val_multNarrowed (h : multDuty a b) :
    val (multNarrowed a b) = wideVal (wideCarryPass (foldHigh (convolution a b))) := by
  have h0 := narrow_wideCarryPass_zero (folded_within (productsWithin_of_multDuty h))
  obtain ⟨h1, h2, h3, h4, -⟩ := narrow_wideCarryPass_succ (foldHigh (convolution a b))
  rw [multNarrowed, val, h0, h1, h2, h3, h4, wideVal]

theorem sameFieldValue_reduceTwice (h : reducePreOk a = true) : sameFieldValue (reduceDatapath (reduceDatapath a)) a :=
  (reducePreservesFieldValue _ (twoReducePassesNormalise a).2).2.trans (reducePreservesFieldValue a h).2

theorem reducePreOk_multNarrowed (a b : FE) : reducePreOk (multNarrowed a b) = true := by
  obtain ⟨-, -, -, -, hn⟩ := narrow_wideCarryPass_succ (foldHigh (convolution a b))
  exact reducePreOk_of_normalised_succ hn

theorem val_multDatapath (h : multDuty a b) : val (multDatapath a b) ≡ val a * val b [ZMOD Config.modulus] :=
  calc val (multDatapath a b)
    _ ≡ val (multNarrowed a b) [ZMOD Config.modulus] := sameFieldValue_reduceTwice (reducePreOk_multNarrowed a b)
    _ ≡ wideVal (foldHigh (convolution a b)) [ZMOD Config.modulus] := val_multNarrowed h ▸ wideVal_wideCarryPass _
    _ ≡ val a * val b [ZMOD Config.modulus] := wideVal_foldHigh a b

/-- Settles O56: each step keeps the product's residue. -/
theorem multComputesFieldProduct : Obligations.MultComputesFieldProduct :=
  fun _ _ h => congrP_iff.mpr (val_multDatapath h)

/-- Settles O58: both sides represent val(A)·(val(B) + val(E)) mod p; the outer ADD of two normalised results does not wrap. -/
theorem multDistributesOverAdd : Obligations.MultDistributesOverAdd := by
  intro a b e hab hae hbe habe
  have hnorm (x : FE) : limbsIn 0 (2 ^ 51 - 1) (multDatapath a x) :=
    normalised_iff_limbsIn.mp (multResultIsNormalised a x)
  have hsum : addPreOk (multDatapath a b) (multDatapath a e) = true :=
    addPreOk_of_limbsIn (hnorm b) (hnorm e) (by norm_num) (by norm_num)
  calc val (multDatapath a (addDatapath b e))
    _ ≡ val a * val (addDatapath b e) [ZMOD Config.modulus] := val_multDatapath habe
    _ = val a * val b + val a * val e := by rw [val_addDatapath hbe, mul_add]
    _ ≡ val (multDatapath a b) + val (multDatapath a e) [ZMOD Config.modulus] :=
      ((val_multDatapath hab).add (val_multDatapath hae)).symm
    _ = val (addDatapath (multDatapath a b) (multDatapath a e)) := (val_addDatapath hsum).symm

/-! ### How far the REDUCE passes go (R109, R132) -/

/-- A pass leaves a normalised element of value at least p as it is, so REDUCE does not make it canonical. -/
theorem reduceDatapath_of_modulus_le (ha : normalised a) (hp : Config.modulus ≤ val a) :
    reduceDatapath a = a ∧ Config.modulus ≤ val (reduceDatapath a) ∧ ¬ canonical (reduceDatapath a) := by
  rw [reduceDatapath_of_normalised ha]
  exact ⟨rfl, hp, fun hc => hp.not_gt hc.2⟩

/-- Settles O59: R132's operands are run pass by pass, and a normalised element is a fixed point of REDUCE (R106), canonical or not. -/
theorem onePassMayNotNormalise : Obligations.OnePassMayNotNormalise := by
  unfold Obligations.OnePassMayNotNormalise
  intro a b p
  have hp : normalised p := by unfold normalised limbNormalised; decide
  have hval : val p = Config.modulus := by decide
  obtain ⟨hpfix, -, hpcanon⟩ := reduceDatapath_of_modulus_le hp hval.ge
  rw [hpfix] at hpcanon
  have hn : multNarrowed a b = ofInts 4503599627370491 (2 ^ 51 - 1) (2 ^ 51 - 1) (2 ^ 51 - 1) (2 ^ 51 - 1) := by decide
  have honce : reduceDatapath (multNarrowed a b) = ofInts (2 ^ 51 + 14) 0 0 0 0 := by rw [hn]; decide
  refine ⟨(multPreOk_iff a b).mp (by decide), ?_, ?_, hp, hval, hpcanon, hpfix, fun _ => reduceDatapath_of_modulus_le⟩
  · rw [honce]
    unfold normalised limbNormalised
    decide
  · rw [multDatapath, honce]
    decide

end Sys2Proof.Machine
end

section
/-! SUPPORT. What a request reports (60_exceptions.md R151 to R154): the response of a failed precondition whose C is a draw, and the
status bits of a response that F gives. -/

namespace Sys2Proof.Machine

variable {s : State} {i : Instr} {p : Params} {r : Response}

/-! ### A failed precondition under OOR_RESULT = `Arbitrary` (R154) -/

/-- C is the next draw, one draw is used up, and PRE_VIOL reports the failure where CHECK_PRECOND builds the check in. -/
theorem responseOf_of_draw (hi : ¬ reservedCode i) (ha : s.params.oorResult = .arbitrary) (hpre : preOk i = false) :
    responseOf i s = (⟨FE.ofBus (Config.freeElement s.draws), statusBits s.params.checkPrecond false⟩, 1) := by
  have hdraw : usesDraw s.params (preOk i) = true := by simp [usesDraw_arbitrary ha, hpre]
  have hst : legalStatus s.params (preOk i) = statusBits s.params.checkPrecond false := by simp [legalStatus, hpre]
  rw [responseOf, if_pos (Nat.not_le.mp hi), legalResult, if_pos hdraw, hst, hdraw]
  rfl

/-- Settles O13: the acceptance answers `responseOf`, which here is a draw. -/
theorem failedPreconditionDraws : Obligations.FailedPreconditionDraws := by
  intro i s he hi ha hpre
  rw [exec_of_enabled i he, responseOf_of_draw hi ha hpre]

/-! ### At most one status bit (R153) -/

/-- ILLEGAL_OP is decided first: a reserved code has no precondition that could fail. -/
theorem Admits.preViol_of_reserved (h : Admits p i r) (hi : reservedCode i) : preViol r.st = false := by
  rw [← Bool.not_eq_true, h.violation]
  simp [(preOk_computed_of_reserved hi).1]

theorem Admits.not_both_bits (h : Admits p i r) : ¬ (illegalOp r.st = true ∧ preViol r.st = true) := by
  rintro ⟨hill, hviol⟩
  have hclear := h.preViol_of_reserved (h.illegal.mp hill)
  exact Bool.false_ne_true (hclear.symm.trans hviol)

/-- Settles O17: the entry that an acceptance appends holds a response that F gives, which sets at most one bit. -/
theorem atMostOneStatusBit : Obligations.AtMostOneStatusBit := by
  intro i s t hx
  obtain ⟨-, rfl⟩ := exec_next hx
  have hF := admits_responseOf i s
  have hst : (responseOf i s).1.st ≠ 0b11#2 := fun h => hF.not_both_bits (h ▸ ⟨rfl, rfl⟩)
  exact ⟨_, rfl, hF.not_both_bits, hst, hF.illegal, hF.preViol_of_reserved, fun _ => hF.violation⟩

end Sys2Proof.Machine
end

section
/-! SUPPORT. Reset and the hazards the host must respect (70_reset_and_hazards.md R180 to R185): what an edge does where `rst` is 1
and right after, what can run before the first reset, and the refusal of a waiting request that is changed or withdrawn. -/

namespace Sys2Proof.Machine

variable {s t : State}

/-! ### A changed or withdrawn request (R185) -/

theorem State.offerAllowed_eq_false {r : Request} {o : Option Request} (hw : s.waiting = some r) (ho : o ≠ some r) :
    s.offerAllowed o = false := by
  rw [Bool.eq_false_iff, ne_eq, State.offerAllowed_iff, hw]
  rintro (h | h)
  · cases h
  · exact ho h.symm

theorem acceptMove_of_changed {r r' : Request} (hw : s.waiting = some r) (hne : r' ≠ r) :
    acceptMove r' s = .refused .requestChanged := by
  rw [acceptMove, State.offerAllowed_eq_false hw (fun h => hne (Option.some.inj h))]
  rfl

theorem edgeMove_of_changed {e : Edge} {r : Request} (hw : s.waiting = some r) (hne : e.offer ≠ some r) :
    edgeMove e s = .refused .requestChanged := by
  rw [edgeMove, State.offerAllowed_eq_false hw hne]
  rfl

/-- Settles O28: a withdrawn request and another one are both no offer of the request that waits. -/
theorem changedRequestIsRefused : Obligations.ChangedRequestIsRefused := by
  intro s r ms hw
  refine ⟨fun e hm hchange => ?_, fun r' hm hne => ?_⟩ <;> rw [step_cons hm]
  · have hoffer : e.offer ≠ some r := by
      rw [ne_eq, Edge.offer_eq_some]
      rintro ⟨hv, hreq⟩
      rcases hchange with hv' | hreq'
      · exact Bool.false_ne_true (hv'.symm.trans hv)
      · exact hreq' hreq
    exact edgeMove_of_changed (s := { s with moves := ms }) hw hoffer
  · exact acceptMove_of_changed (s := { s with moves := ms }) hw hne

/-! ### The edges of a reset (R180, R182) -/

theorem edgeMove_with_rst {e : Edge} (h1 : e.rst = true) (hw : s.waiting = none ∨ s.waiting = e.offer) :
    edgeMove e s = .next { s.assertReset with waiting := e.offer } := by
  simp [edgeMove, State.offerAllowed_iff.mpr hw, h1]

theorem edgeMove_after_rst {e : Edge} (hs : s.sawReset = true) (hr : s.rst = true) (h0 : e.rst = false)
    (hw : s.waiting = none ∨ s.waiting = e.offer) : edgeMove e s = .next { s.releaseReset with waiting := e.offer } := by
  simp [edgeMove, State.offerAllowed_iff.mpr hw, h0, hs, hr]

theorem State.reqReady_in_reset (hr : s.rst = true) (w : Bool) : s.reqReady w = false := by
  simp [State.reqReady, State.canAccept, hr]

/-- Settles O25: the edge is Reset, whose empty queue and raised `rst` leave `rsp_valid` and `req_ready` at 0, and the next edge with
`rst` = 0 meets a block in reset. -/
theorem resetEdgeEmptiesQueue : Obligations.ResetEdgeEmptiesQueue := by
  intro s e ms hm h1 hw
  refine ⟨_, ?_, rfl, State.reqReady_in_reset rfl, rfl, State.rspPort_of_not_valid rfl, fun e' h0 hw' => ?_⟩
  · exact (step_cons hm).trans (edgeMove_with_rst (s := { s with moves := ms }) h1 hw)
  · exact edgeMove_after_rst rfl rfl h0 hw'

/-! ### Before the first reset edge (R183) -/

theorem State.not_running_of_not_sawReset (hs : s.sawReset = false) : ¬ s.running :=
  fun hrun => Bool.false_ne_true (hs.symm.trans hrun.1)

/-- The block has just been reset: `rst` is asserted, nothing is in flight and nothing is recorded. -/
def State.JustReset (t : State) : Prop :=
  t.sawReset = true ∧ t.rst = true ∧ t.q = [] ∧ t.accepted = [] ∧ t.taken = []

theorem State.assertReset_justReset (s : State) (w : Option Request) : State.JustReset { s.assertReset with waiting := w } :=
  ⟨rfl, rfl, rfl, rfl, rfl⟩

/-- Every move but Reset, and every edge but the idle one and the one with `rst` = 1, asks for an earlier reset. -/
theorem runMove_before_reset {m : Move} (hs : s.sawReset = false) (hx : runMove m s = .next t) : t = s ∨ t.JustReset := by
  have hno := State.not_running_of_not_sawReset hs
  cases m with
  | accept r =>
    obtain ⟨⟨hrun, -⟩, -⟩ := exec_next (acceptMove_next hx).2
    exact absurd hrun hno
  | finish => exact absurd (finishStep_next hx).1 hno
  | take => exact absurd (takeStep_next hx).1 hno
  | reset =>
    cases hx
    exact .inr (s.assertReset_justReset s.waiting)
  | release => exact absurd (hs.symm.trans (releaseStep_next hx).1) Bool.false_ne_true
  | edge e =>
    obtain ⟨-, ⟨-, rfl⟩ | ⟨-, -, -, -, rfl⟩ | ⟨-, hs', -⟩ | ⟨-, hrun, -⟩⟩ := edgeMove_next hx
    · exact .inr (s.assertReset_justReset e.offer)
    · exact .inl rfl
    · exact absurd (hs.symm.trans hs') Bool.false_ne_true
    · exact absurd hrun hno

theorem blockMove_before_reset (hs : s.sawReset = false) (hx : blockMove s = .next t) : t = s := by
  obtain rfl | ⟨hrun, -⟩ := blockMove_next hx
  · rfl
  · exact absurd hrun (State.not_running_of_not_sawReset hs)

theorem step_before_reset (hs : s.sawReset = false) (hx : step s = .next t) :
    t = { s with moves := s.moves.tail } ∨ t.JustReset := by
  cases hm : s.moves with
  | nil =>
    obtain rfl := blockMove_before_reset hs (step_nil hm ▸ hx)
    exact .inl (by rw [List.tail_nil, ← hm])
  | cons m ms => exact runMove_before_reset (s := { s with moves := ms }) hs (step_cons hm ▸ hx)

/-- Settles O29: every port value asks for an earlier reset, and so does every step but the reset and the idle ones. -/
theorem nothingRunsBeforeFirstReset : Obligations.NothingRunsBeforeFirstReset := by
  intro s t hs
  refine ⟨?_, ?_, fun w => ?_, step_before_reset hs⟩
  · simp [State.rspPort, hs]
  · simp [State.rspValidPort, hs]
  · simp [State.reqReadyPort, hs]

end Sys2Proof.Machine
end
